-- ==== Sys2Proof/Word.lean ====
section
/-! DEFINITION. The bit-level types of the core: bytes, 32-bit words, register offsets, byte arrays (R5, R9, R13, R14). -/

namespace Sys2Proof

/-- A byte is 8 bits (R14). -/
abbrev Byte := BitVec 8

/-- A word is 32 bits, bit 0 least significant (R5, R13). -/
abbrev Word := BitVec 32

/-- A register offset is a 12-bit byte offset (R9, R70). -/
abbrev Offset := BitVec 12

/-- A byte array of length `n`, byte 0 first (R14). -/
abbrev Bytes (n : Nat) := Vector Byte n

/-- The sixteen 32-bit words of the 4 by 4 matrix (R5, R16). -/
abbrev Words := Vector Word 16

/-- `0^n`, the array of `n` zero bytes (R14). -/
def zeroBytes (n : Nat) : Bytes n := Vector.replicate n 0

/-- Sixteen zero words. -/
def zeroWords : Words := Vector.replicate 16 0

end Sys2Proof
end

