-- ==== Sys2Proof/Syntax.lean ====
section
/-! DEFINITION. The five commands of the core (R102, spec/opcode_table.json), one constructor per row. -/

namespace Sys2Proof

/-- A command with its fields. The length fields are byte counts taken as written from an 8-bit field (R101);
`WellFormed` bounds them. -/
inductive Instr where
  /-- `INIT_STD klen`, standard mode (R206). -/
  | initStd (klen : Nat)
  /-- `INIT_CUSTOM klen, clen`, custom-counter mode (R207). -/
  | initCustom (klen clen : Nat)
  /-- `NEXT`, produce the next block (R236). -/
  | next
  /-- `XOR lin, lout`, stream XOR of the data window (R253). -/
  | xor (lenIn lenOut : Nat)
  /-- `BLOCK` and, with the flag set, `BLOCK RAW` (R189). -/
  | block (raw : Bool)
deriving DecidableEq, Repr

end Sys2Proof
end

