-- ==== Sys2Proof/WellFormed.lean ====
section
/-! DEFINITION. Which instruction terms have an encoding: every byte count lies in 0..255 (R101, R108). -/

namespace Sys2Proof

/-- A byte count that fits its 8-bit field. -/
def fitsField (n : Nat) : Bool := decide (n < 256)

/-- Every byte count of the instruction fits its field. -/
def wellFormed : Instr → Bool
  | .initStd klen => fitsField klen
  | .initCustom klen clen => fitsField klen && fitsField clen
  | .next => true
  | .xor lenIn lenOut => fitsField lenIn && fitsField lenOut
  | .block _ => true

end Sys2Proof
end

