-- ==== Sys2Proof/Decode.lean ====
section
/-! DEFINITION. Decoding a command word (R100 to R105) and, from the same table, encoding a command (R103, R108). -/

namespace Sys2Proof

/-- `OP = w[7:0]` (R100). -/
def fieldOp (w : Word) : Byte := w.extractLsb' 0 8

/-- `A = w[15:8]` (R100). -/
def fieldA (w : Word) : Byte := w.extractLsb' 8 8

/-- `B = w[23:16]` (R100). -/
def fieldB (w : Word) : Byte := w.extractLsb' 16 8

/-- `RSV = w[31:24]` (R100). -/
def fieldRsv (w : Word) : Byte := w.extractLsb' 24 8

/-- Why a word is illegal (R105). The names are the model's own; all of them behave alike: `ERR_OPCODE` (R105; log 13). -/
inductive IllegalWord where
  /-- `RSV` is not 0. -/
  | reservedNotZero
  /-- `OP` is none of 0x01 to 0x05. -/
  | unknownOperation
  /-- A field of `INIT_STD`, `NEXT` or `BLOCK` that must be 0 is not. -/
  | fieldNotZero
deriving DecidableEq, Repr

/-- The match and mask under which a word is a command (R103, opcode_table.json). -/
structure OpcodeRow where
  mnemonic : String
  mask : Word
  pattern : Word
deriving DecidableEq, Repr

/-- The row of `INIT_STD` (R103). -/
def rowInitStd : OpcodeRow := ⟨"INIT_STD", 0xFFFF00FF, 0x00000001⟩
/-- The row of `INIT_CUSTOM` (R103). -/
def rowInitCustom : OpcodeRow := ⟨"INIT_CUSTOM", 0xFF0000FF, 0x00000002⟩
/-- The row of `NEXT` (R103). -/
def rowNext : OpcodeRow := ⟨"NEXT", 0xFFFFFFFF, 0x00000003⟩
/-- The row of `XOR` (R103). -/
def rowXor : OpcodeRow := ⟨"XOR", 0xFF0000FF, 0x00000004⟩
/-- The row of `BLOCK` (R103). -/
def rowBlock : OpcodeRow := ⟨"BLOCK", 0xFFFFFEFF, 0x00000005⟩

/-- The five rows of R103. -/
def opcodeRows : List OpcodeRow := [rowInitStd, rowInitCustom, rowNext, rowXor, rowBlock]

/-- `w & mask = match` (R103). -/
def OpcodeRow.hit (row : OpcodeRow) (w : Word) : Bool := w &&& row.mask == row.pattern

/-- The name given to an illegal word (R105). -/
def illegalName (w : Word) : IllegalWord :=
  if fieldRsv w ≠ 0 then .reservedNotZero
  else if fieldOp w = 0 ∨ 5 < (fieldOp w).toNat then .unknownOperation
  else .fieldNotZero

/-- `decode(w)`: total on all 2^32 words and without state (R104). -/
def decode (w : Word) : Except IllegalWord Instr :=
  if rowInitStd.hit w then .ok (.initStd (fieldA w).toNat)
  else if rowInitCustom.hit w then .ok (.initCustom (fieldA w).toNat (fieldB w).toNat)
  else if rowNext.hit w then .ok .next
  else if rowXor.hit w then .ok (.xor (fieldA w).toNat (fieldB w).toNat)
  else if rowBlock.hit w then .ok (.block (w.getLsbD 8))
  else .error (illegalName w)

/-- A word from its fields: `w = OP + 2^8*A + 2^16*B + 2^24*RSV` with `RSV = 0` (R100). -/
def packFields (op a b : Byte) : Word := (0#8 ++ b ++ a ++ op : BitVec 32)

/-- The word of a command (R103, R108). Faithful on well-formed instructions. -/
def encode : Instr → Word
  | .initStd klen => packFields 0x01 (BitVec.ofNat 8 klen) 0
  | .initCustom klen clen => packFields 0x02 (BitVec.ofNat 8 klen) (BitVec.ofNat 8 clen)
  | .next => packFields 0x03 0 0
  | .xor lenIn lenOut => packFields 0x04 (BitVec.ofNat 8 lenIn) (BitVec.ofNat 8 lenOut)
  | .block raw => packFields 0x05 (if raw then 1 else 0) 0

/-- The row a command's words belong to. -/
def rowOf : Instr → OpcodeRow
  | .initStd _ => rowInitStd
  | .initCustom _ _ => rowInitCustom
  | .next => rowNext
  | .xor _ _ => rowXor
  | .block _ => rowBlock

/-- The command word with bits above `nbits` zero; bit 0 of the table is bit 0 of the one word (R100; log 15). -/
def tableWord (nbits w : Nat) : Word := BitVec.ofNat 32 (w % 2 ^ nbits)

/-- The instruction the decoder reads from a word numbered as the opcode table numbers it. -/
def decodeTableWord (nbits w : Nat) : Option Instr := (decode (tableWord nbits w)).toOption

end Sys2Proof
end

