-- ==== Sys2Proof/Machine/Arx.lean ====
section
/-! DEFINITION. The ARX primitives and the little-endian word and byte views of byte arrays (R130 to R136, R14, R15). -/

namespace Sys2Proof.Machine

/-- `ADD32` (R130). -/
def add32 (a b : Word) : Word := a + b

/-- `XOR32` (R131). -/
def xor32 (a b : Word) : Word := a ^^^ b

/-- `ROTL32`, circular left rotation by `0 < n < 32` (R132). -/
def rotl32 (v : Word) (n : Nat) : Word := v <<< n ||| v >>> (32 - n)

/-- `LE32`, the word of four bytes, lowest index least significant (R134). -/
def le32 (b0 b1 b2 b3 : Byte) : Word := (b3 ++ b2 ++ b1 ++ b0 : BitVec 32)

/-- `ST32`, the four bytes of a word, lowest index first (R135). -/
def st32 (v : Word) : Bytes 4 := #v[v.extractLsb' 0 8, v.extractLsb' 8 8, v.extractLsb' 16 8, v.extractLsb' 24 8]

/-- `A.b[i]` (R14). An index outside the array reads 0; no rule reads one in a state that meets the invariant (log 7). -/
def byteAt {n : Nat} (a : Bytes n) (i : Nat) : Byte := a[i]?.getD 0

/-- `A.b[i] <- v` (R14). An index outside the array writes nothing (log 7). -/
def putByte {n : Nat} (a : Bytes n) (i : Nat) (v : Byte) : Bytes n := a.setIfInBounds i v

/-- `A.b[lo..lo+len-1]` (R14). -/
def slice {n : Nat} (a : Bytes n) (lo len : Nat) : Bytes len := Vector.ofFn fun i => byteAt a (lo + i)

/-- `A.w[i]` (R15, R136). -/
def wordAt {n : Nat} (a : Bytes n) (i : Nat) : Word :=
  le32 (byteAt a (4 * i)) (byteAt a (4 * i + 1)) (byteAt a (4 * i + 2)) (byteAt a (4 * i + 3))

/-- `A.w[i] <- v`, that is `A.b[4i..4i+3] <- ST32(v)` (R15, R136). -/
def putWord {n : Nat} (a : Bytes n) (i : Nat) (v : Word) : Bytes n :=
  putByte (putByte (putByte (putByte a (4 * i) (byteAt (st32 v) 0)) (4 * i + 1) (byteAt (st32 v) 1))
    (4 * i + 2) (byteAt (st32 v) 2)) (4 * i + 3) (byteAt (st32 v) 3)

end Sys2Proof.Machine
end

