-- ==== Sys2Proof/Machine/Counter.lean ====
section
/-! DEFINITION. The counter increment `INCR` and the integer of the counter region (R230, R231). -/

namespace Sys2Proof.Machine

/-- The loop of `INCR` from byte `i`, for at most `k` bytes: it stops at the first byte that does not wrap (R230). -/
def incrFrom (n : Bytes 16) (i : Nat) : Nat → Bytes 16
  | 0 => n
  | k + 1 =>
    let b := byteAt n i + 1
    if b = 0 then incrFrom (putByte n i b) (i + 1) k else putByte n i b

/-- `INCR(n, clen)` (R230). -/
def incr (n : Bytes 16) (clen : Nat) : Bytes 16 := incrFrom n 0 clen

/-- The little-endian integer of the first `k` bytes (R231). -/
def counterValue (n : Bytes 16) : Nat → Nat
  | 0 => 0
  | k + 1 => counterValue n k + (byteAt n k).toNat * 256 ^ k

end Sys2Proof.Machine
end

