-- ==== Sys2Proof/Config.lean ====
section
/-! DEFINITION. What is fixed for this hardware (R6 to R9, R52) and the free values of the working registers (R39, R40, U7). -/

namespace Sys2Proof.Config

/-- `CONST128`, the ASCII string "expand 16-byte k" (R8). PRESUMED by the spec itself, from general knowledge (log 9). -/
def const128 : Bytes 16 :=
  #v[0x65, 0x78, 0x70, 0x61, 0x6e, 0x64, 0x20, 0x31, 0x36, 0x2d, 0x62, 0x79, 0x74, 0x65, 0x20, 0x6b]

/-- `CONST256`, the ASCII string "expand 32-byte k" (R8). PRESUMED by the spec itself, from general knowledge (log 9). -/
def const256 : Bytes 16 :=
  #v[0x65, 0x78, 0x70, 0x61, 0x6e, 0x64, 0x20, 0x33, 0x32, 0x2d, 0x62, 0x79, 0x74, 0x65, 0x20, 0x6b]

/-- `DR = 10` double rounds, the only normative value (R7; log 10). -/
def doubleRounds : Nat := 10

/-- `DWIN = 64`, the bytes one XOR command can move (R9). -/
def dataWindow : Nat := 64

/-- Free value: what `x[0..15]` holds after the `n`-th event that leaves it unspecified (R39, U7; log 4). -/
opaque freeX : Nat → Words

/-- Free value: what `j[0..15]` holds after the `n`-th event that leaves it unspecified (R39, U7; log 4). -/
opaque freeJ : Nat → Words

/-- Free value of the round index `r` (R40, U7; log 4). -/
opaque freeR : Nat → Fin 20

/-- Free value of the quarter-round index `q` (R40, U7; log 4). -/
opaque freeQ : Nat → Fin 4

/-- Free value of the counter byte index `ci` (R40, U7; log 4). -/
opaque freeCi : Nat → Fin 16

end Sys2Proof.Config
end

