-- ==== Sys2Proof/Machine/State.lean ====
section
/-! DEFINITION. The state of the core as plain data (R30), the host's pending operations (R108), the stops, and reset (R51). -/

namespace Sys2Proof.Machine

/-- The sequencer's phases (R40). Between commands the phase is `idle`. -/
inductive Phase where
  | idle | check | setup | assemble | round | feedfwd | serialize | incr | xorbyte
deriving DecidableEq, Repr

/-- The errors a command can raise (R270). -/
inductive ErrCode where
  /-- `ERR_OPCODE`: the word matches no command (R271). -/
  | opcode
  /-- `ERR_KEYLEN`: the key length is not 16 and not 32 (R272). -/
  | keylen
  /-- `ERR_CLEN`: the counter length is 0 or above 16 (R273). -/
  | clen
  /-- `ERR_LENGTH`: input and output lengths differ (R274). -/
  | length
  /-- `ERR_NOSESSION`: no session (R275). -/
  | nosession
  /-- `ERR_RANGE`: the common length exceeds the data window (R276). -/
  | range
deriving DecidableEq, Repr

/-- One operation of the host (R78, R108). `n` is the access width in bytes; `v` is the word an aligned 32-bit write carries
(an access of another width is outside the interface, R74). -/
inductive HostOp where
  /-- Hardware reset between accesses (R301). -/
  | reset
  /-- `MemWrite(off, n, v)` (R78). -/
  | write (off : Offset) (n : Nat) (v : Word)
  /-- `MemRead(off, n)` (R78); the value goes to the read log (R108). -/
  | read (off : Offset) (n : Nat)
deriving DecidableEq, Repr

/-- The complete state (R30), with the host's script and read log (R108; log 1) and the model's own draw counter of free
values (log 4). -/
structure State where
  -- session (R31 to R35)
  key0 : Bytes 16
  key1 : Bytes 16
  nonce : Bytes 16
  clen : BitVec 5
  k256 : Bool
  buf : Bytes 64
  rem : BitVec 7
  -- status flags (R36 to R38)
  valid : Bool
  err : BitVec 4
  fault : Bool
  -- staging and result registers (R41 to R46)
  keyin : Bytes 32
  noncein : Bytes 16
  constin : Bytes 16
  din : Bytes 64
  dout : Bytes 64
  out : Bytes 64
  -- working registers and sequencer (R39, R40)
  x : Words
  j : Words
  phase : Phase
  r : Fin 20
  q : Fin 4
  ci : Fin 16
  -- the model's own: which draw of the free values comes next (log 4)
  freeCount : Nat
  -- the host's pending operations, next first, and the words it has read, oldest first (R108; log 1)
  script : List HostOp
  readLog : List Word
deriving DecidableEq, Repr

/-- Why the machine stops with a fault. The core itself never stops: its errors are next states (R277). -/
inductive Fault where
  /-- Raised by `hostWrite` and `hostRead` on an aligned 32-bit access to an offset where no register is (R75: "no meaning,
  refused by a model"). Safe: the model has no next state (log 3). -/
  | unmappedOffset (off : Offset)
deriving DecidableEq, Repr

/-- Why the machine refuses to give a meaning. -/
inductive Refusal where
  /-- Raised by `exec` alone for an instruction that has no meaning yet; no arm of this model uses it. Safe. -/
  | notModelled (mnemonic : String)
  /-- Raised by `hostWrite` and `hostRead` on an access that is not 32 bits wide at a multiple of 4 (R74: "the core gives it no
  meaning, and a model refuses it"). Safe: the model has no next state (log 3). -/
  | notAlignedWord (off : Offset) (n : Nat)
deriving DecidableEq, Repr

/-- The state right after reset (R51, R300). `x`, `j`, `r`, `q`, `ci` are unspecified there; the zeros are a DESIGN CHOICE
(log 5). No script is loaded (log 1). -/
def State.reset : State where
  key0 := zeroBytes 16
  key1 := zeroBytes 16
  nonce := zeroBytes 16
  clen := 0
  k256 := false
  buf := zeroBytes 64
  rem := 0
  valid := false
  err := 0
  fault := false
  keyin := zeroBytes 32
  noncein := zeroBytes 16
  constin := zeroBytes 16
  din := zeroBytes 64
  dout := zeroBytes 64
  out := zeroBytes 64
  x := zeroWords
  j := zeroWords
  phase := .idle
  r := 0
  q := 0
  ci := 0
  freeCount := 0
  script := []
  readLog := []

end Sys2Proof.Machine
end

