-- ==== Sys2Proof/Machine/Flags.lean ====
section
/-! DEFINITION. The status flags: result codes, what a completed command writes, and the STATUS word (R36 to R38, R48, R270). -/

namespace Sys2Proof.Machine

/-- The result code of an error (R270); 0 is `OK`. -/
def ErrCode.code : ErrCode → BitVec 4
  | .opcode => 1
  | .keylen => 2
  | .clen => 3
  | .length => 4
  | .nosession => 5
  | .range => 6

/-- The two initialisation errors clear `valid` (R277). -/
def ErrCode.endsSession : ErrCode → Bool
  | .keylen => true
  | .clen => true
  | .opcode => false
  | .length => false
  | .nosession => false
  | .range => false

/-- The end of a command that completes: `err <- 0` and the sequencer is back in `IDLE` (R37, R40). -/
def complete (s : State) : State := { s with err := 0, phase := .idle }

/-- `STATUS` (R48): `ERR` 3:0, `VALID` 4, `FAULT` 5, `K256` 6, `CLEN` 12:8, `REM` 22:16, every other bit 0. -/
def statusWord (s : State) : Word :=
  (0#9 ++ s.rem ++ 0#3 ++ s.clen ++ 0#1 ++ BitVec.ofBool s.k256 ++ BitVec.ofBool s.fault ++ BitVec.ofBool s.valid ++ s.err
    : BitVec 32)

end Sys2Proof.Machine
end

