-- ==== Sys2Proof/Machine/Operands.lean ====
section
/-! DEFINITION. Where each command takes its operands from (R106), and the session constant (R34, R203). -/

namespace Sys2Proof.Machine

/-- `KEYIN.b[0..15]`: the key of 16 bytes, or its first half (R106, R202). -/
def keyFirstHalf (s : State) : Bytes 16 := slice s.keyin 0 16

/-- `KEYIN.b[16..31]`: the second half of a key of 32 bytes (R106, R202). -/
def keySecondHalf (s : State) : Bytes 16 := slice s.keyin 16 16

/-- The nonce buffer of standard mode: 8 zero bytes, then `NONCEIN.b[0..7]` in order (R206). -/
def standardNonce (s : State) : Bytes 16 := zeroBytes 8 ++ slice s.noncein 0 8

/-- `CONST(k256)` (R34). -/
def constOf (k256 : Bool) : Bytes 16 := if k256 then Config.const256 else Config.const128

/-- `KLEN` is 16 or 32 (R204). -/
def keyLengthOk (klen : Nat) : Bool := klen == 16 || klen == 32

/-- `1 <= CLEN <= 16` (R205). -/
def counterLengthOk (clen : Nat) : Bool := 1 ≤ clen && clen ≤ 16

end Sys2Proof.Machine
end

