-- ==== Sys2Proof/Machine/Round.lean ====
section
/-! DEFINITION. The quarter-round, the rounds, the permutation and the lanes of the sequencer (R150 to R161). -/

namespace Sys2Proof.Machine

/-- Half of one step of `QR`: `x[a] <- x[a] +32 x[b]; x[d] <- rotl32(x[d] ^ x[a], n)` (R150). -/
def qrStep (a b d : Fin 16) (n : Nat) (x : Words) : Words :=
  let x := x.set a (add32 x[a] x[b])
  x.set d (rotl32 (xor32 x[d] x[a]) n)

/-- `QR(a, b, c, d)` on the working registers, eight statements in order (R150). -/
def qr (a b c d : Fin 16) (x : Words) : Words :=
  qrStep c d b 7 (qrStep a b d 8 (qrStep c d b 12 (qrStep a b d 16 x)))

/-- Four words in the order of `QR`'s arguments (R152). -/
structure Quad where
  a : Word
  b : Word
  c : Word
  d : Word
deriving DecidableEq, Repr

/-- Steps 1 and 3 of `QRF`: `a += b; d = rotl(d ^ a, n)` (R150, R152). -/
def quadStepA (n : Nat) (v : Quad) : Quad :=
  let a := add32 v.a v.b
  { v with a := a, d := rotl32 (xor32 v.d a) n }

/-- Steps 2 and 4 of `QRF`: `c += d; b = rotl(b ^ c, n)` (R150, R152). -/
def quadStepC (n : Nat) (v : Quad) : Quad :=
  let c := add32 v.c v.d
  { v with c := c, b := rotl32 (xor32 v.b c) n }

/-- `QRF`, the quarter-round as a function of four words (R152), with the rotation amounts of R7. -/
def qrf (v : Quad) : Quad := quadStepC 7 (quadStepA 8 (quadStepC 12 (quadStepA 16 v)))

/-- `COLROUND` (R153). -/
def colRound (x : Words) : Words := qr 3 7 11 15 (qr 2 6 10 14 (qr 1 5 9 13 (qr 0 4 8 12 x)))

/-- `DIAGROUND` (R154). -/
def diagRound (x : Words) : Words := qr 3 4 9 14 (qr 2 7 8 13 (qr 1 6 11 12 (qr 0 5 10 15 x)))

/-- `DBLROUND`: the column round first, the diagonal round second (R157). -/
def dblRound (x : Words) : Words := diagRound (colRound x)

/-- `PERM(DR)` (R157). -/
def perm : Nat → Words → Words
  | 0, x => x
  | dr + 1, x => perm dr (dblRound x)

/-- `PERMF`, the permutation of this hardware: `PERM(10)` as a function of values (R157, R7). -/
def permF (x : Words) : Words := perm Config.doubleRounds x

/-- Round `r` is a column round when `r` is even and a diagonal round when `r` is odd (R40). -/
def roundNo (r : Nat) (x : Words) : Words := if r % 2 = 0 then colRound x else diagRound x

/-- `u` rounds in a row, starting with round `r` (R161). -/
def roundsFrom (r : Nat) : Nat → Words → Words
  | 0, x => x
  | u + 1, x => roundsFrom (r + 1) u (roundNo r x)

/-- A sequencer that evaluates `u` rounds per step, for `steps` steps, starting with round `r` (R161). -/
def unrolledFrom (u r : Nat) : Nat → Words → Words
  | 0, x => x
  | steps + 1, x => unrolledFrom u (r + u) steps (roundsFrom r u x)

/-- All `2*DR` rounds, `u` at a time (R161). -/
def permUnrolled (u : Nat) (x : Words) : Words := unrolledFrom u 0 (2 * Config.doubleRounds / u) x

/-- The register indices of one quarter-round, in argument order. -/
structure Lane where
  a : Fin 16
  b : Fin 16
  c : Fin 16
  d : Fin 16
deriving DecidableEq, Repr

/-- Lane `k` of a column round (R155). -/
def colLane (k : Fin 4) : Lane :=
  ⟨Fin.ofNat 16 k, Fin.ofNat 16 (4 + k), Fin.ofNat 16 (8 + k), Fin.ofNat 16 (12 + k)⟩

/-- Lane `k` of a diagonal round (R155). -/
def diagLane (k : Fin 4) : Lane :=
  ⟨Fin.ofNat 16 k, Fin.ofNat 16 (4 + (k + 1) % 4), Fin.ofNat 16 (8 + (k + 2) % 4), Fin.ofNat 16 (12 + (k + 3) % 4)⟩

/-- The quarter-round on one lane. -/
def qrLane (l : Lane) (x : Words) : Words := qr l.a l.b l.c l.d x

/-- Lane `k` of round `r` (R40, R155). -/
def laneOf (r : Nat) (k : Fin 4) : Lane := if r % 2 = 0 then colLane k else diagLane k

/-- The matrix with row `i` rotated left by `i` positions (R155). -/
def rotateRows (x : Words) : Words := Vector.ofFn fun k => x[4 * (k.val / 4) + (k.val + k.val / 4) % 4]'(by omega)

end Sys2Proof.Machine
end

