-- ==== Sys2Proof/Machine/Transform.lean ====
section
/-! DEFINITION. The block transform: assembly, permutation, feed-forward, serialisation (R180 to R186). -/

namespace Sys2Proof.Machine

/-- `ASSEMBLE`: words 0..3 the constant, 4..7 `key0`, 8..11 `key1`, 12..15 the nonce (R180, R181). -/
def assemble (key0 key1 nonce constant : Bytes 16) : Words :=
  #v[wordAt constant 0, wordAt constant 1, wordAt constant 2, wordAt constant 3,
     wordAt key0 0, wordAt key0 1, wordAt key0 2, wordAt key0 3,
     wordAt key1 0, wordAt key1 1, wordAt key1 2, wordAt key1 3,
     wordAt nonce 0, wordAt nonce 1, wordAt nonce 2, wordAt nonce 3]

/-- `FEEDFWD`: `x[i] <- x[i] +32 j[i]` for every `i` (R183). -/
def feedForward (j x : Words) : Words := Vector.ofFn fun i => add32 x[i] j[i]

/-- `SERIALIZE`: `O.w[i] <- x[i]`, little-endian (R184). -/
def serialize (x : Words) : Bytes 64 := Vector.ofFn fun k => byteAt (st32 (x[k.val / 4]'(by omega))) (k.val % 4)

/-- `BLOCKFN(key0, key1, nonce, constant)` (R185, argument order R182). -/
def blockFn (key0 key1 nonce constant : Bytes 16) : Bytes 64 :=
  serialize (feedForward (assemble key0 key1 nonce constant) (permF (assemble key0 key1 nonce constant)))

/-- `BLOCKFN_RAW`, the transform without the feed-forward (R186). -/
def blockFnRaw (key0 key1 nonce constant : Bytes 16) : Bytes 64 :=
  serialize (permF (assemble key0 key1 nonce constant))

end Sys2Proof.Machine
end

