-- ==== Sys2Proof/Machine/Ops.lean ====
section
/-! DEFINITION. The shared operations over the state: raising an error (R277), session setup (R202, R208), block production
(R235), keystream consumption (R251), the register window (R71 to R78) and the reset event (R300). -/

namespace Sys2Proof.Machine

/-- `raise E(code)`, the core's only exception entry (R277): `err <- code`, `fault <- 1`, and `valid <- 0` for the two
initialisation errors. Nothing is saved and control goes nowhere; there is nothing to return from (R280). -/
def raise (e : ErrCode) (s : State) : State :=
  { s with err := e.code, fault := true, valid := s.valid && !e.endsSession, phase := .idle }

/-- `KEYSETUP(KLEN)` (R202). -/
def keySetup (klen : Nat) (s : State) : State :=
  { s with
    key0 := keyFirstHalf s
    key1 := if klen = 32 then keySecondHalf s else keyFirstHalf s
    k256 := klen == 32 }

/-- The rest of a completed INIT after `KEYSETUP`: nonce and counter length, an empty leftover buffer, a valid session
(R206, R207, R208). -/
def openSession (nonce : Bytes 16) (clen : Nat) (s : State) : State :=
  { s with nonce := nonce, clen := BitVec.ofNat 5 clen, buf := zeroBytes 64, rem := 0, valid := true }

/-- The working registers and indices hold no architectural value once a block is done: each takes a free value
(R39, R40, U7; log 4). -/
def releaseWork (s : State) : State :=
  { s with
    x := Config.freeX s.freeCount
    j := Config.freeJ s.freeCount
    r := Config.freeR s.freeCount
    q := Config.freeQ s.freeCount
    ci := Config.freeCi s.freeCount
    freeCount := s.freeCount + 1 }

/-- The block `PRODUCE` returns, from the nonce before the increment (R235). -/
def producedBlock (s : State) : Bytes 64 := blockFn s.key0 s.key1 s.nonce (constOf s.k256)

/-- What `PRODUCE` leaves: the counter region incremented once (R235). -/
def afterProduce (s : State) : State := releaseWork { s with nonce := incr s.nonce s.clen.toNat }

/-- The first half of `TAKEBYTE`: when no byte is left, produce a block into `buf` (R251). -/
def refill (s : State) : State :=
  if s.rem = 0 then { afterProduce s with buf := producedBlock s, rem := 64 } else s

/-- The byte `TAKEBYTE` returns (R251). -/
def takenByte (s : State) : Byte := byteAt (refill s).buf (64 - (refill s).rem.toNat)

/-- What `TAKEBYTE` leaves (R251). -/
def afterTake (s : State) : State := { refill s with rem := (refill s).rem - 1 }

/-- One round of the XOR loop: `DOUT.b[i] <- DIN.b[i] ^ TAKEBYTE` (R253). -/
def xorByte (i : Nat) (s : State) : State :=
  { afterTake s with dout := putByte s.dout i (byteAt s.din i ^^^ takenByte s) }

/-- The XOR loop for `n` bytes from index `i` (R253). -/
def xorLoop : Nat → Nat → State → State
  | 0, _, s => s
  | n + 1, i, s => xorLoop n (i + 1) (xorByte i s)

/-- The bytes `XORSTREAM(M)` returns, for a message of any length (R261). -/
def xorStream : List Byte → State → List Byte
  | [], _ => []
  | m :: ms, s => (m ^^^ takenByte s) :: xorStream ms (afterTake s)

/-- The state after `n` keystream bytes have been taken, as `XORSTREAM` takes them (R261). -/
def afterStream : Nat → State → State
  | 0, s => s
  | n + 1, s => afterStream n (afterTake s)

/-- The register names of the map (R71); an array name stands for all its words. -/
inductive RegName where
  | cmd | status | keyin | noncein | constin | noncecur | din | dout | out
deriving DecidableEq, Repr

/-- One row of the register map: base offset and size in bytes (R71). -/
structure MapRow where
  base : Nat
  size : Nat
  name : RegName
deriving DecidableEq, Repr

/-- The register map (R71). Every offset outside these rows is unmapped (R75). -/
def registerMap : List MapRow :=
  [⟨0x000, 4, .cmd⟩, ⟨0x004, 4, .status⟩, ⟨0x010, 32, .keyin⟩, ⟨0x030, 16, .noncein⟩, ⟨0x040, 16, .constin⟩,
   ⟨0x050, 16, .noncecur⟩, ⟨0x080, 64, .din⟩, ⟨0x0C0, 64, .dout⟩, ⟨0x100, 64, .out⟩]

/-- The offset lies in the row. -/
def MapRow.holds (row : MapRow) (off : Nat) : Bool := row.base ≤ off && off < row.base + row.size

/-- The register at an offset: its name and its word index in the array (R71). -/
def regAt (off : Offset) : Option (RegName × Nat) :=
  (registerMap.find? fun row => row.holds off.toNat).map fun row => (row.name, (off.toNat - row.base) / 4)

/-- What a host read of a register returns (R73, R76, R78): write-only registers read 0; `NONCECUR` shows `nonce` (R49). -/
def readReg (name : RegName) (i : Nat) (s : State) : Word :=
  match name with
  | .cmd => 0
  | .status => statusWord s
  | .keyin => 0
  | .noncein => wordAt s.noncein i
  | .constin => wordAt s.constin i
  | .noncecur => wordAt s.nonce i
  | .din => wordAt s.din i
  | .dout => wordAt s.dout i
  | .out => wordAt s.out i

/-- What a host write does to a register other than `CMD`: a staging register takes the word, a read-only register ignores it
(R76, R77, R78). The write of `CMD` is `runCommand`. -/
def writeReg (name : RegName) (i : Nat) (v : Word) (s : State) : State :=
  match name with
  | .cmd => s
  | .status => s
  | .keyin => { s with keyin := putWord s.keyin i v }
  | .noncein => { s with noncein := putWord s.noncein i v }
  | .constin => { s with constin := putWord s.constin i v }
  | .noncecur => s
  | .din => { s with din := putWord s.din i v }
  | .dout => s
  | .out => s

/-- An access the interface admits: 32 bits at a multiple of 4 (R74). -/
def alignedWord (off : Offset) (n : Nat) : Bool := n == 4 && off.toNat % 4 == 0

/-- The `reset` event between host accesses: every state element at its reset value (R51, R300, R301), the unspecified working
registers at free values (log 4). The host keeps its remaining script and its read log (log 6). -/
def hardReset (s : State) : State :=
  releaseWork { State.reset with freeCount := s.freeCount, script := s.script, readLog := s.readLog }

end Sys2Proof.Machine
end

