-- ==== Sys2Proof/Machine/Block.lean ====
section
/-! DEFINITION. The command BLOCK, with and without the feed-forward (R189). -/

namespace Sys2Proof.Machine

/-- The transform on the staging registers (R189). -/
def stagedBlock (raw : Bool) (s : State) : Bytes 64 :=
  if raw then blockFnRaw (keyFirstHalf s) (keySecondHalf s) s.noncein s.constin
  else blockFn (keyFirstHalf s) (keySecondHalf s) s.noncein s.constin

/-- `BLOCK` / `BLOCK RAW`: no check can fail after decode, no session is needed (R189). -/
def execBlock (raw : Bool) (s : State) : Host.Outcome State Fault Refusal :=
  .next (complete (releaseWork { s with out := stagedBlock raw s }))

end Sys2Proof.Machine
end

