-- ==== Sys2Proof/Machine/Init.lean ====
section
/-! DEFINITION. The initialisation commands INIT_STD and INIT_CUSTOM (R200 to R212). -/

namespace Sys2Proof.Machine

/-- `INIT_STD klen` (R206). -/
def execInitStd (klen : Nat) (s : State) : Host.Outcome State Fault Refusal :=
  if keyLengthOk klen then .next (complete (openSession (standardNonce s) 8 (keySetup klen s)))
  else .next (raise .keylen s)

/-- `INIT_CUSTOM klen, clen`: the key length is checked before the counter length (R207, R205). -/
def execInitCustom (klen clen : Nat) (s : State) : Host.Outcome State Fault Refusal :=
  if keyLengthOk klen then
    if counterLengthOk clen then .next (complete (openSession s.noncein clen (keySetup klen s)))
    else .next (raise .clen s)
  else .next (raise .keylen s)

end Sys2Proof.Machine
end

