-- ==== Sys2Proof/Machine/Next.lean ====
section
/-! DEFINITION. The command NEXT (R236). -/

namespace Sys2Proof.Machine

/-- `NEXT`: `OUT <- PRODUCE` with a session, else `ERR_NOSESSION` (R236). -/
def execNext (s : State) : Host.Outcome State Fault Refusal :=
  if s.valid then .next (complete { afterProduce s with out := producedBlock s })
  else .next (raise .nosession s)

end Sys2Proof.Machine
end

