-- ==== Sys2Proof/Machine/Xor.lean ====
section
/-! DEFINITION. The command XOR (R253). -/

namespace Sys2Proof.Machine

/-- `XOR lin, lout`: the checks in the order `ERR_NOSESSION`, `ERR_LENGTH`, `ERR_RANGE`, then the loop (R253, R278). -/
def execXor (lenIn lenOut : Nat) (s : State) : Host.Outcome State Fault Refusal :=
  if !s.valid then .next (raise .nosession s)
  else if lenIn ≠ lenOut then .next (raise .length s)
  else if Config.dataWindow < lenIn then .next (raise .range s)
  else .next (complete (xorLoop lenIn 0 s))

end Sys2Proof.Machine
end

