-- ==== Sys2Proof/Machine/Dispatch.lean ====
section
/-! DEFINITION. One arm per command (R102); decoding has already happened. -/

namespace Sys2Proof.Machine

def exec (i : Instr) (s : State) : Host.Outcome State Fault Refusal :=
  match i with
  | .initStd klen => Sys2Proof.Machine.execInitStd klen s
  | .initCustom klen clen => Sys2Proof.Machine.execInitCustom klen clen s
  | .next => Sys2Proof.Machine.execNext s
  | .xor lenIn lenOut => Sys2Proof.Machine.execXor lenIn lenOut s
  | .block raw => Sys2Proof.Machine.execBlock raw s

end Sys2Proof.Machine
end

