-- ==== Sys2Proof/Machine/HostPort.lean ====
section
/-! DEFINITION. The host's operations on the register window (R74 to R79, R301): what one pending operation does. -/

namespace Sys2Proof.Machine

/-- Executing the word written to `CMD`: the decoded command, or `ERR_OPCODE` (R47, R104). -/
def runCommand (w : Word) (s : State) : Host.Outcome State Fault Refusal :=
  match decode w with
  | .ok i => exec i s
  | .error _ => .next (raise .opcode s)

/-- `MemWrite(off, n, v)` (R74, R75, R78). -/
def hostWrite (off : Offset) (n : Nat) (v : Word) (s : State) : Host.Outcome State Fault Refusal :=
  if alignedWord off n then
    match regAt off with
    | some (.cmd, _) => runCommand v s
    | some (name, i) => .next (writeReg name i v s)
    | none => .fault (.unmappedOffset off)
  else .refused (.notAlignedWord off n)

/-- `MemRead(off, n)`: the value is appended to the read log and nothing else changes (R77, R78, R108). -/
def hostRead (off : Offset) (n : Nat) (s : State) : Host.Outcome State Fault Refusal :=
  if alignedWord off n then
    match regAt off with
    | some (name, i) => .next { s with readLog := s.readLog ++ [readReg name i s] }
    | none => .fault (.unmappedOffset off)
  else .refused (.notAlignedWord off n)

/-- One host operation (R78, R301). -/
def hostOp (op : HostOp) (s : State) : Host.Outcome State Fault Refusal :=
  match op with
  | .reset => .next (hardReset s)
  | .write off n v => hostWrite off n v s
  | .read off n => hostRead off n s

/-- The host performs its operations in order, one at a time (R79, R108); with none pending the core is idle and holds its
state (R288; log 2). -/
def hostStep (s : State) : Host.Outcome State Fault Refusal :=
  match s.script with
  | [] => .next s
  | op :: rest => hostOp op { s with script := rest }

/-- The host operation that writes a word to `CMD` (R47). -/
def commandWrite (w : Word) : HostOp := .write 0x000 4 w

end Sys2Proof.Machine
end

