-- ==== Sys2Proof/Machine/Step.lean ====
section
/-! DEFINITION. One step of the machine: the host's next pending operation (R79, R108). -/

namespace Sys2Proof.Machine

/-- One host operation, or an idle step when the script is exhausted (log 2). -/
def step (s : State) : Host.Outcome State Fault Refusal := hostStep s

/-- The state whose next step is the host's write of the table's word to `CMD` (log 1, log 15). -/
def State.withFetchWord (s : State) (nbits w : Nat) : State :=
  { s with script := commandWrite (tableWord nbits w) :: s.script }

end Sys2Proof.Machine
end

