-- ==== Sys2Proof/Machine/Script.lean ====
section
/-! DEFINITION. The script syntax of host programs: commands and pseudo-operations as host operations (R108, R109). -/

namespace Sys2Proof.Machine

/-- `WR` at a byte offset (R108). -/
def opWrite (off : Nat) (v : Word) : HostOp := .write (BitVec.ofNat 12 off) 4 v

/-- `RD` at a byte offset (R108). -/
def opRead (off : Nat) : HostOp := .read (BitVec.ofNat 12 off) 4

/-- A command of the script: `WR CMD` with the command's word (R108). -/
def opCommand (i : Instr) : HostOp := commandWrite (encode i)

/-- Byte `i` of a byte string, a missing byte at the end counting as 0 (R109). -/
def hexByte (hex : List Byte) (i : Nat) : Byte := hex[i]?.getD 0

/-- Word `i` of a byte string (R109). -/
def hexWord (hex : List Byte) (i : Nat) : Word :=
  le32 (hexByte hex (4 * i)) (hexByte hex (4 * i + 1)) (hexByte hex (4 * i + 2)) (hexByte hex (4 * i + 3))

/-- `n` word writes of a byte string, to the array at offset `base` (R109). -/
def loadWords (base : Nat) (hex : List Byte) (n : Nat) : List HostOp :=
  (List.range n).map fun i => opWrite (base + 4 * i) (hexWord hex i)

/-- `n` word reads of the array at offset `base` (R109). -/
def readWords (base n : Nat) : List HostOp := (List.range n).map fun i => opRead (base + 4 * i)

/-- `LDKEY hex`, 16 or 32 bytes (R109). -/
def ldKey (hex : List Byte) : List HostOp := loadWords 0x010 hex (hex.length / 4)

/-- `LDNONCE hex`, 8 or 16 bytes (R109). -/
def ldNonce (hex : List Byte) : List HostOp := loadWords 0x030 hex (hex.length / 4)

/-- `LDCONST hex`, 16 bytes (R109). -/
def ldConst (hex : List Byte) : List HostOp := loadWords 0x040 hex 4

/-- `LDDATA hex`, 0 to 64 bytes: `ceil(n/4)` whole words (R109). -/
def ldData (hex : List Byte) : List HostOp := loadWords 0x080 hex ((hex.length + 3) / 4)

/-- `XOR n`, that is `XOR n, n` (R109). -/
def opXor (n : Nat) : HostOp := opCommand (.xor n n)

/-- `RDOUT` (R109). -/
def rdOut : List HostOp := readWords 0x100 16

/-- `RDDATA n` (R109). -/
def rdData (n : Nat) : List HostOp := readWords 0x0C0 ((n + 3) / 4)

/-- `RDNONCE` (R109). -/
def rdNonce : List HostOp := readWords 0x050 4

/-- `RDSTATUS` (R109). -/
def rdStatus : HostOp := opRead 0x004

/-- The state of a host that starts a script (R108). -/
def State.withScript (s : State) (script : List HostOp) : State := { s with script := script }

/-- `k` steps of the machine, stopping at the first fault or refusal: a host performing the next `k` operations (R79, R108). -/
def run : Nat → State → Host.Outcome State Fault Refusal
  | 0, s => .next s
  | k + 1, s =>
    match step s with
    | .next t => run k t
    | .fault f => .fault f
    | .refused r => .refused r

end Sys2Proof.Machine
end

