-- ==== Sys2Proof/Machine/Sequencer.lean ====
section
/-! DEFINITION. The sequencer inside a command, phase by phase (R40, R160, R161). The host never observes it: `exec` is the whole
command, and the model states that the sequencer computes the same command (log 8). -/

namespace Sys2Proof.Machine

/-- The first check that refuses the command, in the order of R278; `none` when every check passes. -/
def commandError (i : Instr) (s : State) : Option ErrCode :=
  match i with
  | .initStd klen => if keyLengthOk klen then none else some .keylen
  | .initCustom klen clen =>
    if !keyLengthOk klen then some .keylen else if !counterLengthOk clen then some .clen else none
  | .next => if s.valid then none else some .nosession
  | .xor lenIn lenOut =>
    if !s.valid then some .nosession
    else if lenIn ≠ lenOut then some .length
    else if Config.dataWindow < lenIn then some .range
    else none
  | .block _ => none

/-- A command in execution: the core's state and the byte index `i` of the XOR loop (R253), which R40 names no register for
(log 8). -/
structure Running where
  core : State
  byteIndex : Nat
deriving DecidableEq, Repr

/-- The command has started: the phase is `CHECK` (R40). -/
def seqStart (s : State) : Running := ⟨{ s with phase := .check }, 0⟩

/-- The state with the sequencer in phase `p`. -/
def enter (p : Phase) (s : State) : State := { s with phase := p }

/-- Where XOR goes when it needs the byte of index `i`: done, a new block, or a buffered byte (R40, R251). -/
def xorContinue (len i : Nat) (s : State) : State :=
  if len ≤ i then complete s else if s.rem = 0 then enter .assemble s else enter .xorbyte s

/-- Phase `CHECK` (R40, R278). -/
def seqCheck (i : Instr) (s : State) : State :=
  match commandError i s with
  | some e => raise e s
  | none =>
    match i with
    | .initStd _ => enter .setup s
    | .initCustom _ _ => enter .setup s
    | .next => enter .assemble s
    | .xor len _ => xorContinue len 0 s
    | .block _ => enter .assemble s

/-- Phase `SETUP`: the writes of an INIT (R206, R207). -/
def seqSetup (i : Instr) (s : State) : State :=
  match i with
  | .initStd klen => complete (openSession (standardNonce s) 8 (keySetup klen s))
  | .initCustom klen clen => complete (openSession s.noncein clen (keySetup klen s))
  | .next => s
  | .xor _ _ => s
  | .block _ => s

/-- The input words of the command's block (R180, R189, R235). -/
def seqInput (i : Instr) (s : State) : Words :=
  match i with
  | .block _ => assemble (keyFirstHalf s) (keySecondHalf s) s.noncein s.constin
  | .initStd _ => assemble s.key0 s.key1 s.nonce (constOf s.k256)
  | .initCustom _ _ => assemble s.key0 s.key1 s.nonce (constOf s.k256)
  | .next => assemble s.key0 s.key1 s.nonce (constOf s.k256)
  | .xor _ _ => assemble s.key0 s.key1 s.nonce (constOf s.k256)

/-- Phase `ASSEMBLE`: `j` and `x` are loaded and the round indices cleared (R180, R40). -/
def seqAssemble (i : Instr) (s : State) : State :=
  { s with j := seqInput i s, x := seqInput i s, r := 0, q := 0, phase := .round }

/-- The raw form of `BLOCK`, the only command that skips the feed-forward (R40, R186). -/
def skipsFeedForward (i : Instr) : Bool :=
  match i with
  | .block raw => raw
  | .initStd _ => false
  | .initCustom _ _ => false
  | .next => false
  | .xor _ _ => false

/-- Phase `ROUND`: the quarter-round of lane `q` of round `r` on the working registers (R40, R150, R155). -/
def seqRound (i : Instr) (s : State) : State :=
  let s' := { s with x := qrLane (laneOf s.r s.q) s.x, q := s.q + 1 }
  if s.q ≠ 3 then s'
  else if s.r ≠ 19 then { s' with r := s.r + 1 }
  else enter (if skipsFeedForward i then .serialize else .feedfwd) s'

/-- Phase `FEEDFWD` (R183). -/
def seqFeedForward (s : State) : State := { s with x := feedForward s.j s.x, phase := .serialize }

/-- Phase `SERIALIZE`: the block goes to `OUT` (BLOCK, NEXT) or to `buf` (XOR); BLOCK is then done (R184, R40). -/
def seqSerialize (i : Instr) (s : State) : State :=
  match i with
  | .block _ => complete { s with out := serialize s.x }
  | .next => { s with out := serialize s.x, ci := 0, phase := .incr }
  | .xor _ _ => { s with buf := serialize s.x, rem := 64, ci := 0, phase := .incr }
  | .initStd _ => s
  | .initCustom _ _ => s

/-- Phase `INCR`: one byte of the counter; it leaves the phase at the first byte that does not wrap, or after byte `clen - 1`
(R230, R234). -/
def seqIncr (i : Instr) (m : Running) : State :=
  let s := m.core
  let b := byteAt s.nonce s.ci + 1
  let s' := { s with nonce := putByte s.nonce s.ci b }
  if b = 0 ∧ s.ci.val + 1 < s.clen.toNat then { s' with ci := s.ci + 1 }
  else
    match i with
    | .xor len _ => xorContinue len m.byteIndex s'
    | .next => complete s'
    | .initStd _ => s'
    | .initCustom _ _ => s'
    | .block _ => s'

/-- Phase `XORBYTE`: one byte of `DOUT` from the buffered keystream (R251, R253). -/
def seqXorByte (i : Instr) (m : Running) : Running :=
  let s := m.core
  let k := byteAt s.buf (64 - s.rem.toNat)
  let s' := { s with dout := putByte s.dout m.byteIndex (byteAt s.din m.byteIndex ^^^ k), rem := s.rem - 1 }
  match i with
  | .xor len _ => ⟨xorContinue len (m.byteIndex + 1) s', m.byteIndex + 1⟩
  | .initStd _ => m
  | .initCustom _ _ => m
  | .next => m
  | .block _ => m

/-- One step of the sequencer (R40). In `IDLE` nothing moves. -/
def seqStep (i : Instr) (m : Running) : Running :=
  match m.core.phase with
  | .idle => m
  | .check => { m with core := seqCheck i m.core }
  | .setup => { m with core := seqSetup i m.core }
  | .assemble => { m with core := seqAssemble i m.core }
  | .round => { m with core := seqRound i m.core }
  | .feedfwd => { m with core := seqFeedForward m.core }
  | .serialize => { m with core := seqSerialize i m.core }
  | .incr => { m with core := seqIncr i m }
  | .xorbyte => seqXorByte i m

/-- `n` steps of the sequencer. -/
def seqRun (i : Instr) : Nat → Running → Running
  | 0, m => m
  | n + 1, m => seqRun i n (seqStep i m)

/-- The state without the registers that hold no architectural value between commands (R30, R39, R40), and without the
model's draw counter: what a command computes (log 8). -/
def State.architectural (s : State) : State :=
  { s with x := zeroWords, j := zeroWords, r := 0, q := 0, ci := 0, freeCount := 0 }

end Sys2Proof.Machine
end

