-- ==== Sys2Proof/Safety.lean ====
section
/-! DEFINITION. What claims mean by a good state (the invariants of R50) and a script inside the interface (R74, R75). -/

namespace Sys2Proof.Machine

/-- The invariants of R50 (1) to (5), and the sequencer at rest between commands (R40). -/
structure State.Inv (s : State) : Prop where
  /-- R50 (1): a session has a counter length in 1..16. -/
  clen_range : s.valid = true → 1 ≤ s.clen.toNat ∧ s.clen.toNat ≤ 16
  /-- R50 (2): with a 16-byte key both halves are equal. -/
  halves_equal : s.valid = true → s.k256 = false → s.key0 = s.key1
  /-- R50 (3). -/
  rem_range : s.rem.toNat ≤ 64
  /-- R50 (4). -/
  err_range : s.err.toNat ≤ 6
  /-- R50 (5). -/
  err_fault : s.err ≠ 0 → s.fault = true
  /-- R40: between commands `phase = IDLE`. -/
  phase_idle : s.phase = .idle

/-- A host operation inside the interface: reset, or an aligned 32-bit access to a mapped offset (R74, R75). -/
def inInterface : HostOp → Bool
  | .reset => true
  | .write off n _ => alignedWord off n && (regAt off).isSome
  | .read off n => alignedWord off n && (regAt off).isSome

/-- A script all of whose operations are inside the interface. -/
def scriptInInterface (s : State) : Bool := s.script.all inInterface

/-- The step completed. -/
def completes (o : Host.Outcome State Fault Refusal) : Prop := ∃ t, o = .next t

end Sys2Proof.Machine
end

