-- ==== Sys2Proof/Certificates/Slice0/Obligations.lean ====
section
/-! DEFINITION. What is stated about the core, rule by rule of the spec. The words `x`, `j`, `r`, `q`, `ci` and the draw counter are
left free by the spec (log 4): a statement of a whole next state compares `architectural` states, which leave them out. -/

namespace Sys2Proof.Claims

open Sys2Proof Sys2Proof.Machine

/-- The field values a command takes from its word (R101, R103). -/
def fieldsAgree (w : Word) : Instr → Prop
  | .initStd klen => klen = (fieldA w).toNat
  | .initCustom klen clen => klen = (fieldA w).toNat ∧ clen = (fieldB w).toNat
  | .next => True
  | .xor lenIn lenOut => lenIn = (fieldA w).toNat ∧ lenOut = (fieldB w).toNat
  | .block raw => raw = w.getLsbD 8

/-- Word `i` of a register bank. -/
def wordOf (x : Words) (i : Nat) : Word := x[i]?.getD 0

/-- The four words of a lane. -/
def quadAt (l : Lane) (x : Words) : Quad := ⟨x[l.a], x[l.b], x[l.c], x[l.d]⟩

/-- The four indices of a lane. -/
def laneIndices (l : Lane) : List (Fin 16) := [l.a, l.b, l.c, l.d]

/-- `QR(0, 1, 2, 3)` on registers that hold four given words. -/
def quarter (a b c d : Word) : Quad :=
  quadAt ⟨0, 1, 2, 3⟩ (qr 0 1 2 3 #v[a, b, c, d, 0, 0, 0, 0, 0, 0, 0, 0, 0, 0, 0, 0])

/-- The quarter-rounds of one round, lane by lane in a given order (R155). -/
def onLanes (lane : Fin 4 → Lane) (order : List (Fin 4)) (x : Words) : Words :=
  order.foldl (fun y k => qrLane (lane k) y) x

/-- `n_k`: the nonce buffer after `k` increments (R237). -/
def nonceAfter (s : State) (k : Nat) : Bytes 16 := (fun n => incr n s.clen.toNat)^[k] s.nonce

/-- `B_k`: block number `k` of the session that starts at `s` (R237). -/
def blockSeq (s : State) (k : Nat) : Bytes 64 := blockFn s.key0 s.key1 (nonceAfter s k) (constOf s.k256)

/-- Keystream byte number `t` of the session that starts at `s` (R250). -/
def keystreamByte (s : State) (t : Nat) : Byte := byteAt (blockSeq s (t / 64)) (t % 64)

/-- `ceil(t/64)` (R252). -/
def blocksFor (t : Nat) : Nat := (t + 63) / 64

/-- How many of the first `t` keystream bytes found no byte left, so that a block was produced for them (R251). -/
def blocksProduced (t : Nat) (s : State) : Nat := ((List.range t).filter fun i => (afterStream i s).rem = 0).length

/-- The state with other session registers (R30). -/
def withSession (s : State) (k0 k1 n : Bytes 16) (c : BitVec 5) (k : Bool) (b : Bytes 64) (r : BitVec 7) : State :=
  { s with key0 := k0, key1 := k1, nonce := n, clen := c, k256 := k, buf := b, rem := r }

/-- The state with other staging registers of key, nonce and constant. -/
def withStaging (s : State) (key : Bytes 32) (nonce const : Bytes 16) : State :=
  { s with keyin := key, noncein := nonce, constin := const }

/-- The state with other key material and working registers: everything a host can never read (R41, R53). -/
def withSecrets (s : State) (k0 k1 : Bytes 16) (b : Bytes 64) (key : Bytes 32) (x j : Words) : State :=
  { s with key0 := k0, key1 := k1, buf := b, keyin := key, x := x, j := j }

/-- Two states hold the same session (R30). -/
def sameSession (s t : State) : Prop :=
  s.key0 = t.key0 ∧ s.key1 = t.key1 ∧ s.nonce = t.nonce ∧ s.clen = t.clen ∧ s.k256 = t.k256 ∧ s.buf = t.buf ∧
  s.rem = t.rem ∧ s.valid = t.valid

/-- A message sent chunk by chunk (R258): before each chunk the host fills `DIN` with anything whose first bytes are the chunk,
then issues one XOR of the chunk's length, and reads that many bytes of `DOUT`. -/
inductive ChunkRun : State → List (List Byte) → List Byte → State → Prop where
  | nil (s : State) : ChunkRun s [] [] s
  | cons (s t u : State) (din : Bytes 64) (chunk : List Byte) (rest : List (List Byte)) (out : List Byte) :
      chunk.length ≤ 64 → (∀ i < chunk.length, chunk[i]? = some (byteAt din i)) →
      exec (.xor chunk.length chunk.length) { s with din := din } = .next t →
      ChunkRun t rest out u →
      ChunkRun s (chunk :: rest) ((List.range chunk.length).map (fun i => byteAt t.dout i) ++ out) u

/-- A script that performs `n` NEXT commands (R108). -/
def nextScript (n : Nat) : List HostOp := List.replicate n (opCommand .next)

/-- The word the host would read at an offset; 0 where no register is. -/
def windowWord (off : Offset) (s : State) : Word :=
  match regAt off with
  | some (name, i) => readReg name i s
  | none => 0

/-- The host operation at the head of the script is a completed INIT's `CMD` write or a reset. -/
def endsOrStartsSession (op : HostOp) (t : State) : Prop :=
  op = .reset ∨
  ∃ (off : Offset) (w : Word) (i : Instr), op = .write off 4 w ∧ off = 0x000 ∧ decode w = .ok i ∧ t.valid = true ∧ t.err = 0 ∧
    ((∃ k, i = .initStd k) ∨ ∃ k c, i = .initCustom k c)

end Sys2Proof.Claims

open Sys2Proof Sys2Proof.Machine Sys2Proof.Claims

/-! ### Encoding -/

/-- Every command with byte counts in 0..255 is decoded from its own word, with every operand (R100 to R103). -/
def Obligations.DecodeInvertsEncode : Prop :=
  ∀ i : Instr, wellFormed i = true → decode (encode i) = .ok i

/-- A legal word is the encoding of the one well-formed command it decodes to (R103, R105: no reserved-but-accepted words). -/
def Obligations.EncodeInvertsDecode : Prop :=
  ∀ (w : Word) (i : Instr), decode w = .ok i → wellFormed i = true ∧ encode i = w

/-- R104. -/
def Obligations.DecodeReturnsTheMatchingRow : Prop :=
  (∀ (w : Word) (i : Instr), decode w = .ok i ↔ (rowOf i).hit w = true ∧ fieldsAgree w i) ∧
  (∀ w : Word, opcodeRows.Pairwise fun row row' => ¬ (row.hit w = true ∧ row'.hit w = true)) ∧
  (∀ w : Word, (∃ e, decode w = .error e) ↔ ∀ row ∈ opcodeRows, row.hit w = false) ∧
  (∀ (w : Word) (i : Instr) (s : State), decode w = .ok i → runCommand w s = exec i s) ∧
  (∀ (w : Word) (e : IllegalWord) (s : State), decode w = .error e → runCommand w s = .next (raise .opcode s))

/-- R105. -/
def Obligations.IllegalWordsAreCounted : Prop :=
  (∀ w : Word, (∃ e, decode w = .error e) ↔
    fieldRsv w ≠ 0 ∨ (fieldOp w).toNat = 0 ∨ 5 < (fieldOp w).toNat ∨
    ((fieldOp w).toNat = 1 ∧ fieldB w ≠ 0) ∨
    ((fieldOp w).toNat = 3 ∧ (fieldA w ≠ 0 ∨ fieldB w ≠ 0)) ∨
    ((fieldOp w).toNat = 5 ∧ ((fieldA w).toNat / 2 ≠ 0 ∨ fieldB w ≠ 0))) ∧
  (∀ (w : Word) (e : IllegalWord) (s : State), decode w = .error e →
    runCommand w s = .next { s with err := 1, fault := true, phase := .idle }) ∧
  Set.ncard { w : Word | ∃ i, decode w = .ok i } = 131331

/-- R110. -/
def Obligations.WorkedEncodings : Prop :=
  decode 0x00001001 = .ok (.initStd 16) ∧ decode 0x00002001 = .ok (.initStd 32) ∧ decode 0x00000F01 = .ok (.initStd 15) ∧
  decode 0x00042002 = .ok (.initCustom 32 4) ∧ decode 0x00101002 = .ok (.initCustom 16 16) ∧
  decode 0x00000003 = .ok .next ∧ decode 0x00404004 = .ok (.xor 64 64) ∧ decode 0x00000004 = .ok (.xor 0 0) ∧
  decode 0x00060504 = .ok (.xor 5 6) ∧ decode 0x00000005 = .ok (.block false) ∧ decode 0x00000105 = .ok (.block true) ∧
  [Instr.initStd 16, .initStd 32, .initStd 15, .initCustom 32 4, .initCustom 16 16, .next, .xor 64 64, .xor 0 0, .xor 5 6,
    .block false, .block true].map encode =
    [0x00001001, 0x00002001, 0x00000F01, 0x00042002, 0x00101002, 0x00000003, 0x00404004, 0x00000004, 0x00060504, 0x00000005,
    0x00000105] ∧
  [(0x00000000 : Word), 0x00000006, 0x01000003, 0x00000103, 0x00010001, 0x00000205, 0x00010005].map
    (fun w => (decode w).toOption) = List.replicate 7 none ∧
  (∀ s : State, exec (.initStd 15) s = .next (raise .keylen s)) ∧
  (∀ s : State, s.valid = true → exec (.xor 5 6) s = .next (raise .length s))

/-! ### Primitives -/

/-- R130 and R131. -/
def Obligations.AddAndXorPrimitives : Prop :=
  (∀ a b : Word, (add32 a b).toNat = (a.toNat + b.toNat) % 2 ^ 32) ∧
  (∀ a b : Word, add32 a b = add32 b a) ∧ (∀ a b c : Word, add32 (add32 a b) c = add32 a (add32 b c)) ∧
  (∀ a : Word, add32 a 0 = a) ∧ add32 0xFFFFFFFF 0x00000001 = 0 ∧ add32 0x80000000 0x80000000 = 0 ∧
  add32 0x77777777 0x01234567 = 0x789ABCDE ∧
  (∀ (a b : Word) (i : Nat), ((xor32 a b).getLsbD i).toNat = ((a.getLsbD i).toNat + (b.getLsbD i).toNat) % 2) ∧
  (∀ a : Word, xor32 a a = 0) ∧ (∀ a : Word, xor32 a 0 = a) ∧ (∀ a b : Word, xor32 (xor32 a b) b = a) ∧
  xor32 0x01020304 0x789ABCDE = 0x7998BFDA

/-- R132. -/
def Obligations.RotateLeftPrimitive : Prop :=
  (∀ (v : Word) (n : Nat), 0 < n → n < 32 →
    (rotl32 v n).toNat = (v.toNat * 2 ^ n) % 2 ^ 32 + v.toNat / 2 ^ (32 - n) ∧
    (∀ i < 32, (rotl32 v n).getLsbD ((i + n) % 32) = v.getLsbD i) ∧
    rotl32 0 n = 0 ∧ rotl32 0xFFFFFFFF n = 0xFFFFFFFF) ∧
  rotl32 0x80000001 16 = 0x00018000 ∧ rotl32 0x80000001 12 = 0x00001800 ∧ rotl32 0x80000001 8 = 0x00000180 ∧
  rotl32 0x80000001 7 = 0x000000C0 ∧ rotl32 0x12345678 16 = 0x56781234 ∧ rotl32 0x12345678 12 = 0x45678123 ∧
  rotl32 0x12345678 8 = 0x34567812 ∧ rotl32 0x12345678 7 = 0x1A2B3C09 ∧ rotl32 0x7998BFDA 7 = 0xCC5FED3C

/-- R134 and R135. -/
def Obligations.LittleEndianLoadAndStore : Prop :=
  (∀ b0 b1 b2 b3 : Byte, (le32 b0 b1 b2 b3).toNat = b0.toNat + 2 ^ 8 * b1.toNat + 2 ^ 16 * b2.toNat + 2 ^ 24 * b3.toNat) ∧
  (∀ (v : Word) (k : Nat), k < 4 → (byteAt (st32 v) k).toNat = v.toNat / 2 ^ (8 * k) % 256) ∧
  (∀ v : Word, le32 (byteAt (st32 v) 0) (byteAt (st32 v) 1) (byteAt (st32 v) 2) (byteAt (st32 v) 3) = v) ∧
  (∀ b0 b1 b2 b3 : Byte, st32 (le32 b0 b1 b2 b3) = #v[b0, b1, b2, b3]) ∧
  le32 0x65 0x78 0x70 0x61 = 0x61707865 ∧ le32 0x01 0x00 0x00 0x00 = 0x00000001 ∧ le32 0x00 0x00 0x00 0x09 = 0x09000000 ∧
  le32 0 0 0 0 = 0 ∧ le32 0xFF 0xFF 0xFF 0xFF = 0xFFFFFFFF ∧ st32 0x52096789 = #v[0x89, 0x67, 0x09, 0x52]

/-- R136: one storage, two views. -/
def Obligations.WordViewIsByteView : Prop :=
  ∀ (n : Nat) (a : Bytes n) (i : Nat) (v : Word), 4 * i + 4 ≤ n →
    (∀ k < 4, byteAt (putWord a i v) (4 * i + k) = byteAt (st32 v) k) ∧
    (∀ k, (k < 4 * i ∨ 4 * i + 4 ≤ k) → byteAt (putWord a i v) k = byteAt a k) ∧
    wordAt a i = le32 (byteAt a (4 * i)) (byteAt a (4 * i + 1)) (byteAt a (4 * i + 2)) (byteAt a (4 * i + 3)) ∧
    wordAt (putWord a i v) i = v ∧
    (∀ k, k ≠ i → wordAt (putWord a i v) k = wordAt a k)

/-! ### Quarter-round and rounds -/

/-- R150. -/
def Obligations.QuarterRoundEightStatements : Prop :=
  (∀ (a b c d : Fin 16) (x : Words), [a, b, c, d].Nodup →
    let a1 := add32 x[a] x[b]
    let d1 := rotl32 (xor32 x[d] a1) 16
    let c1 := add32 x[c] d1
    let b1 := rotl32 (xor32 x[b] c1) 12
    let a2 := add32 a1 b1
    let d2 := rotl32 (xor32 d1 a2) 8
    let c2 := add32 c1 d2
    let b2 := rotl32 (xor32 b1 c2) 7
    (qr a b c d x)[a] = a2 ∧ (qr a b c d x)[b] = b2 ∧ (qr a b c d x)[c] = c2 ∧ (qr a b c d x)[d] = d2 ∧
    ∀ k : Fin 16, k ∉ [a, b, c, d] → (qr a b c d x)[k] = x[k]) ∧
  quarter 0 0 0 0 = ⟨0, 0, 0, 0⟩ ∧
  quarter 0xFFFFFFFF 0xFFFFFFFF 0xFFFFFFFF 0xFFFFFFFF = ⟨0xF0000FFD, 0x88790878, 0x0110FDEF, 0x010FFDF0⟩ ∧
  quarter 1 0 0 0 = ⟨0x10000001, 0x80808808, 0x01010110, 0x01000110⟩ ∧
  quarter 0 0 0 1 = ⟨0x10000000, 0x80800808, 0x01010010, 0x01000010⟩ ∧
  quarter 0x11111111 0x01020304 0x9B8D6F43 0x01234567 = ⟨0xEA2A92F4, 0xCB1CF8CE, 0x4581472E, 0x5881C4BB⟩

/-- R152. -/
def Obligations.QuarterRoundIsABijection : Prop :=
  (∀ (l : Lane) (x : Words), (laneIndices l).Nodup → quadAt l (qrLane l x) = qrf (quadAt l x)) ∧
  Function.Bijective qrf

/-- R153 and R154. -/
def Obligations.RoundsApplyTheQuarterRoundToTheirLanes : Prop :=
  (List.ofFn colLane = [⟨0, 4, 8, 12⟩, ⟨1, 5, 9, 13⟩, ⟨2, 6, 10, 14⟩, ⟨3, 7, 11, 15⟩]) ∧
  (List.ofFn diagLane = [⟨0, 5, 10, 15⟩, ⟨1, 6, 11, 12⟩, ⟨2, 7, 8, 13⟩, ⟨3, 4, 9, 14⟩]) ∧
  (∀ (x : Words) (k : Fin 4), quadAt (colLane k) (colRound x) = qrf (quadAt (colLane k) x)) ∧
  (∀ (x : Words) (k : Fin 4), quadAt (diagLane k) (diagRound x) = qrf (quadAt (diagLane k) x)) ∧
  colRound zeroWords = zeroWords ∧ diagRound zeroWords = zeroWords ∧
  quadAt (colLane 0) (colRound (assemble (zeroBytes 16) (zeroBytes 16) (zeroBytes 16) Config.const128)) =
    ⟨0xB7877FEB, 0x4A7D5C86, 0x5A83FD3F, 0xE21E9BCF⟩ ∧
  (∀ x : Words, quadAt ⟨2, 7, 8, 13⟩ x = ⟨0x516461B1, 0x2A5F714C, 0x53372767, 0x3D631689⟩ →
    quadAt ⟨2, 7, 8, 13⟩ (qr 2 7 8 13 x) = ⟨0xBDB886DC, 0xCFACAFD2, 0xE46BEA80, 0xCCC07C79⟩ ∧
    ∀ k : Fin 16, k ∉ [2, 7, 8, 13] → (qr 2 7 8 13 x)[k] = x[k])

/-- R155. -/
def Obligations.LanesOfARoundAreIndependent : Prop :=
  (∀ k : Fin 4, (laneIndices (colLane k)).map Fin.val = [k.val, 4 + k.val, 8 + k.val, 12 + k.val] ∧
    (laneIndices (diagLane k)).map Fin.val = [k.val, 4 + (k.val + 1) % 4, 8 + (k.val + 2) % 4, 12 + (k.val + 3) % 4]) ∧
  (∀ lane ∈ [colLane, diagLane], ∀ i : Fin 16, ∃! k : Fin 4, i ∈ laneIndices (lane k)) ∧
  (∀ (x : Words) (order : List (Fin 4)), order.Perm [0, 1, 2, 3] →
    onLanes colLane order x = colRound x ∧ onLanes diagLane order x = diagRound x) ∧
  (∀ (x : Words) (row col : Nat), row < 4 → col < 4 →
    wordOf (rotateRows x) (4 * row + col) = wordOf x (4 * row + (col + row) % 4)) ∧
  Function.Bijective rotateRows ∧
  (∀ x : Words, rotateRows (diagRound x) = colRound (rotateRows x))

/-- R157. -/
def Obligations.PermutationIteratesTheDoubleRound : Prop :=
  (∀ x : Words, dblRound x = diagRound (colRound x)) ∧
  (∀ (dr : Nat) (x : Words), perm dr x = dblRound^[dr] x) ∧
  (∀ x : Words, permF x = dblRound^[10] x) ∧
  (∀ dr : Nat, perm dr zeroWords = zeroWords) ∧
  (∀ x : Words, perm 0 x = x)

/-- The unroll factor is not observable: for every `U` that divides `2*DR`, evaluating `U` alternating rounds per sequencer step
gives the permutation (R161). -/
def Obligations.UnrollFactorIsUnobservable : Prop :=
  ∀ (u : Nat) (x : Words), u ∣ 2 * Config.doubleRounds → permUnrolled u x = permF x

/-! ### Block transform -/

/-- R180. -/
def Obligations.AssemblyLaysOutTheMatrix : Prop :=
  (∀ (key0 key1 nonce constant : Bytes 16) (i : Nat), i < 4 →
    let J := assemble key0 key1 nonce constant
    wordOf J i = wordAt constant i ∧ wordOf J (4 + i) = wordAt key0 i ∧ wordOf J (8 + i) = wordAt key1 i ∧
    wordOf J (12 + i) = wordAt nonce i) ∧
  (∀ (key0 key1 nonce constant : Bytes 16) (i : Nat), i < 16 →
    wordOf (assemble key0 key1 nonce constant) i = wordAt (constant ++ key0 ++ key1 ++ nonce) i) ∧
  (∀ (i : Instr) (s : State), (seqAssemble i s).j = seqInput i s ∧ (seqAssemble i s).x = (seqAssemble i s).j) ∧
  assemble (zeroBytes 16) (zeroBytes 16) (zeroBytes 16) Config.const128 =
    #v[0x61707865, 0x3120646E, 0x79622D36, 0x6B206574, 0, 0, 0, 0, 0, 0, 0, 0, 0, 0, 0, 0]

/-- R184. -/
def Obligations.SerializationIsLittleEndian : Prop :=
  (∀ (x : Words) (i k : Nat), i < 16 → k < 4 →
    (byteAt (serialize x) (4 * i + k)).toNat = (wordOf x i).toNat / 2 ^ (8 * k) % 256) ∧
  (∀ (x : Words) (i : Nat), i < 16 → wordAt (serialize x) i = wordOf x i) ∧
  (∀ x : Words, wordOf x 0 = 0x52096789 → slice (serialize x) 0 4 = #v[0x89, 0x67, 0x09, 0x52])

/-- R185, with its known answer. -/
def Obligations.BlockFunctionFormula : Prop :=
  (∀ (key0 key1 nonce constant : Bytes 16) (i : Nat), i < 16 →
    let J := assemble key0 key1 nonce constant
    wordAt (blockFn key0 key1 nonce constant) i = add32 (wordOf (permF J) i) (wordOf J i)) ∧
  blockFn (zeroBytes 16) (zeroBytes 16) (zeroBytes 16) (zeroBytes 16) = zeroBytes 64 ∧
  blockFn (zeroBytes 16) (zeroBytes 16) (zeroBytes 16) Config.const128 =
    #v[0x89, 0x67, 0x09, 0x52, 0x60, 0x83, 0x64, 0xfd, 0x00, 0xb2, 0xf9, 0x09, 0x36, 0xf0, 0x31, 0xc8,
       0xe7, 0x56, 0xe1, 0x5d, 0xba, 0x04, 0xb8, 0x49, 0x3d, 0x00, 0x42, 0x92, 0x59, 0xb2, 0x0f, 0x46,
       0xcc, 0x04, 0xf1, 0x11, 0x24, 0x6b, 0x6c, 0x2c, 0xe0, 0x66, 0xbe, 0x3b, 0xfb, 0x32, 0xd9, 0xaa,
       0x0f, 0xdd, 0xfb, 0xc1, 0x21, 0x23, 0xd4, 0xb9, 0xe4, 0x4f, 0x34, 0xdc, 0xa0, 0x5a, 0x10, 0x3f]

/-- Without the feed-forward the output is the permuted words, the permutation is a bijection, and the output determines all
four inputs (42_block_transform.md section 2, R186). -/
def Obligations.RawBlockDeterminesItsInputs : Prop :=
  (∀ (key0 key1 nonce constant : Bytes 16) (i : Nat), i < 16 →
    wordAt (blockFnRaw key0 key1 nonce constant) i = wordOf (permF (assemble key0 key1 nonce constant)) i) ∧
  Function.Bijective permF ∧
  (∀ key0 key1 nonce constant key0' key1' nonce' constant' : Bytes 16,
    blockFnRaw key0 key1 nonce constant = blockFnRaw key0' key1' nonce' constant' →
    key0 = key0' ∧ key1 = key1' ∧ nonce = nonce' ∧ constant = constant')

/-- R189: BLOCK and BLOCK RAW from every state, with everything they leave alone, their two words, and the words near them that
are illegal. -/
def Obligations.BlockCommandRunsTheTransform : Prop :=
  (∀ (raw : Bool) (s : State), ∃ t, exec (.block raw) s = .next t ∧
    t.architectural = { s with
      out := if raw then blockFnRaw (slice s.keyin 0 16) (slice s.keyin 16 16) s.noncein s.constin
             else blockFn (slice s.keyin 0 16) (slice s.keyin 16 16) s.noncein s.constin
      err := 0
      phase := .idle }.architectural) ∧
  decode 0x00000005 = .ok (.block false) ∧ decode 0x00000105 = .ok (.block true) ∧
  (∀ (w : Word) (s : State), fieldOp w = 0x05 → (fieldA w).toNat / 2 ≠ 0 ∨ fieldB w ≠ 0 ∨ fieldRsv w ≠ 0 →
    runCommand w s = .next (raise .opcode s))

/-- R190. -/
def Obligations.NextEqualsBlockOnTheSessionOperands : Prop :=
  ∀ s : State, s.valid = true → ∃ t u, exec .next s = .next t ∧
    exec (.block false) { s with keyin := s.key0 ++ s.key1, noncein := s.nonce, constin := constOf s.k256 } = .next u ∧
    t.out = u.out ∧ u.nonce = s.nonce

/-! ### Initialisation -/

/-- R206: the next state of INIT_STD, completed or refused, from every state. -/
def Obligations.InitStdNextState : Prop :=
  (∀ (klen : Nat) (s : State), klen = 16 ∨ klen = 32 →
    exec (.initStd klen) s = .next { s with
      key0 := slice s.keyin 0 16
      key1 := if klen = 32 then slice s.keyin 16 16 else slice s.keyin 0 16
      k256 := klen == 32
      nonce := zeroBytes 8 ++ slice s.noncein 0 8
      clen := 8
      buf := zeroBytes 64
      rem := 0
      valid := true
      err := 0
      phase := .idle }) ∧
  (∀ (klen : Nat) (s : State), ¬ (klen = 16 ∨ klen = 32) →
    exec (.initStd klen) s = .next { s with err := 2, fault := true, valid := false, phase := .idle }) ∧
  (∀ (klen : Nat) (s t : State), klen = 16 ∨ klen = 32 → exec (.initStd klen) s = .next t →
    ∀ i < 8, byteAt t.nonce i = 0 ∧ byteAt t.nonce (8 + i) = byteAt s.noncein i) ∧
  (∀ t : State, exec (.initStd 16) State.reset = .next t → statusWord t = 0x00000810) ∧
  (∀ s t : State, slice s.noncein 0 8 = #v[0x10, 0x11, 0x12, 0x13, 0x14, 0x15, 0x16, 0x17] → exec (.initStd 16) s = .next t →
    readReg .noncecur 2 t = 0x13121110 ∧ readReg .noncecur 3 t = 0x17161514) ∧
  (∀ klen < 256, decode (BitVec.ofNat 32 (0x01 + 256 * klen)) = .ok (.initStd klen)) ∧
  (∀ (w : Word) (s : State), fieldOp w = 0x01 → fieldB w ≠ 0 ∨ fieldRsv w ≠ 0 → runCommand w s = .next (raise .opcode s))

/-- R207: the next state of INIT_CUSTOM, completed or refused, from every state. -/
def Obligations.InitCustomNextState : Prop :=
  (∀ (klen clen : Nat) (s : State), klen = 16 ∨ klen = 32 → 1 ≤ clen → clen ≤ 16 →
    exec (.initCustom klen clen) s = .next { s with
      key0 := slice s.keyin 0 16
      key1 := if klen = 32 then slice s.keyin 16 16 else slice s.keyin 0 16
      k256 := klen == 32
      nonce := s.noncein
      clen := BitVec.ofNat 5 clen
      buf := zeroBytes 64
      rem := 0
      valid := true
      err := 0
      phase := .idle }) ∧
  (∀ (klen clen : Nat) (s : State), ¬ (klen = 16 ∨ klen = 32) →
    exec (.initCustom klen clen) s = .next { s with err := 2, fault := true, valid := false, phase := .idle }) ∧
  (∀ (klen clen : Nat) (s : State), klen = 16 ∨ klen = 32 → clen = 0 ∨ 16 < clen →
    exec (.initCustom klen clen) s = .next { s with err := 3, fault := true, valid := false, phase := .idle }) ∧
  (∀ (klen clen : Nat) (s t : State), clen ≤ 16 → exec (.initCustom klen clen) s = .next t → t.valid = true →
    t.clen.toNat = clen) ∧
  (∀ klen < 256, ∀ clen < 256,
    decode (BitVec.ofNat 32 (0x02 + 256 * klen + 65536 * clen)) = .ok (.initCustom klen clen)) ∧
  (∀ (w : Word) (s : State), fieldOp w = 0x02 → fieldRsv w ≠ 0 → runCommand w s = .next (raise .opcode s))

/-- R209. -/
def Obligations.InitModesAreEquivalent : Prop :=
  ∀ (klen : Nat) (s : State), ∃ t, exec (.initStd klen) s = .next t ∧
    exec (.initCustom klen 8) { s with noncein := zeroBytes 8 ++ slice s.noncein 0 8 } =
      .next { t with noncein := zeroBytes 8 ++ slice s.noncein 0 8 }

/-- R200: the transition table. -/
def Obligations.SessionStateMachine : Prop :=
  (∀ (klen : Nat) (s t : State), exec (.initStd klen) s = .next t →
    (t.err = 0 ∧ t.valid = true) ∨ (t.err = 2 ∧ t.valid = false)) ∧
  (∀ (klen clen : Nat) (s t : State), exec (.initCustom klen clen) s = .next t →
    (t.err = 0 ∧ t.valid = true) ∨ ((t.err = 2 ∨ t.err = 3) ∧ t.valid = false)) ∧
  (∀ s t : State, exec .next s = .next t →
    t.valid = s.valid ∧ ((t.err = 0 ∧ s.valid = true) ∨ (t.err = 5 ∧ s.valid = false))) ∧
  (∀ (lenIn lenOut : Nat) (s t : State), exec (.xor lenIn lenOut) s = .next t →
    t.valid = s.valid ∧
    (((t.err = 0 ∨ t.err = 4 ∨ t.err = 6) ∧ s.valid = true) ∨ (t.err = 5 ∧ s.valid = false))) ∧
  (∀ (raw : Bool) (s t : State), exec (.block raw) s = .next t → t.err = 0 ∧ t.valid = s.valid) ∧
  (∀ (w : Word) (e : IllegalWord) (s t : State), decode w = .error e → runCommand w s = .next t →
    t.err = 1 ∧ t.valid = s.valid) ∧
  (∀ s t : State, hostOp .reset s = .next t → t.valid = false) ∧ State.reset.valid = false

/-! ### Errors -/

/-- R277, with the codes of R270. -/
def Obligations.RaiseWritesErrFaultAndValid : Prop :=
  (∀ (e : ErrCode) (s : State), raise e s = { s with
    err := e.code
    fault := true
    valid := if e = .keylen ∨ e = .clen then false else s.valid
    phase := .idle }) ∧
  [ErrCode.opcode, .keylen, .clen, .length, .nosession, .range].map ErrCode.code = [1, 2, 3, 4, 5, 6]

/-- R278. -/
def Obligations.ErrorsHaveThisPriority : Prop :=
  (∀ (w : Word) (e : IllegalWord) (s : State), decode w = .error e → runCommand w s = .next (raise .opcode s)) ∧
  (∀ (klen : Nat) (s : State), ¬ (klen = 16 ∨ klen = 32) → exec (.initStd klen) s = .next (raise .keylen s)) ∧
  (∀ (klen clen : Nat) (s : State), ¬ (klen = 16 ∨ klen = 32) →
    exec (.initCustom klen clen) s = .next (raise .keylen s)) ∧
  (∀ (klen clen : Nat) (s : State), klen = 16 ∨ klen = 32 → clen = 0 ∨ 16 < clen →
    exec (.initCustom klen clen) s = .next (raise .clen s)) ∧
  (∀ s : State, s.valid = false → exec .next s = .next (raise .nosession s)) ∧
  (∀ (lenIn lenOut : Nat) (s : State), s.valid = false → exec (.xor lenIn lenOut) s = .next (raise .nosession s)) ∧
  (∀ (lenIn lenOut : Nat) (s : State), s.valid = true → lenIn ≠ lenOut →
    exec (.xor lenIn lenOut) s = .next (raise .length s)) ∧
  (∀ (len : Nat) (s : State), s.valid = true → 64 < len → exec (.xor len len) s = .next (raise .range s)) ∧
  (∀ (raw : Bool) (s t : State), exec (.block raw) s = .next t → t.err = 0) ∧
  (∀ s : State, runCommand 0x01000F01 s = .next (raise .opcode s))

/-- R279: a command never stops the machine, and a refused command changes `err`, `fault`, `valid` at most. -/
def Obligations.RefusalsArePrecise : Prop :=
  ∀ (i : Instr) (s : State), ∃ t, exec i s = .next t ∧
    (t.err ≠ 0 → t = { s with err := t.err, fault := true, valid := t.valid, phase := .idle }) ∧
    (t.err ≠ 0 → t.valid = s.valid ∨ (t.valid = false ∧ (t.err = 2 ∨ t.err = 3))) ∧
    (t.err = 0 ↔ commandError i s = none)

/-- R38: the sticky fault bit. -/
def Obligations.FaultBitIsSticky : Prop :=
  (∀ (e : ErrCode) (s : State), (raise e s).fault = true) ∧
  (∀ s t : State, step s = .next t → s.fault = true → t.fault = true ∨ ∃ rest, s.script = .reset :: rest) ∧
  (∀ (i : Instr) (s t : State) (b : Bool), exec i s = .next t →
    ∃ b', exec i { s with fault := b } = .next { t with fault := b' })

/-! ### Counter and block production -/

/-- R230, R232 and R233, byte by byte: the increment of a counter region that has a byte other than 0xFF, and of one that has
none. -/
def Obligations.CounterIncrementByBytes : Prop :=
  (∀ (n : Bytes 16) (clen m : Nat), m < clen → clen ≤ 16 → (∀ i < m, byteAt n i = 0xFF) → byteAt n m ≠ 0xFF →
    (∀ i < m, byteAt (incr n clen) i = 0) ∧ byteAt (incr n clen) m = byteAt n m + 1 ∧
    ∀ i, m < i → byteAt (incr n clen) i = byteAt n i) ∧
  (∀ (n : Bytes 16) (clen : Nat), clen ≤ 16 → (∀ i < clen, byteAt n i = 0xFF) →
    ∀ i < clen, byteAt (incr n clen) i = 0) ∧
  (∀ (n : Bytes 16) (clen i : Nat), clen ≤ i → byteAt (incr n clen) i = byteAt n i) ∧
  (∀ s : State, s.valid = true → (∀ i < s.clen.toNat, byteAt s.nonce i = 0xFF) →
    ∃ t, exec .next s = .next t ∧ t.err = 0 ∧ t.valid = true ∧ t.fault = s.fault)

/-- R231. -/
def Obligations.CounterIncrementIsModularAddition : Prop :=
  (∀ (n : Bytes 16) (clen : Nat), 1 ≤ clen → clen ≤ 16 →
    counterValue (incr n clen) clen = (counterValue n clen + 1) % 256 ^ clen) ∧
  (∀ (n : Bytes 16) (k : Nat), counterValue n k = ∑ i ∈ Finset.range k, (byteAt n i).toNat * 256 ^ i) ∧
  (∀ key0 key1 n constant : Bytes 16, counterValue n 8 =
    (wordOf (assemble key0 key1 n constant) 12).toNat + 2 ^ 32 * (wordOf (assemble key0 key1 n constant) 13).toNat)

/-- R239. -/
def Obligations.CounterPeriod : Prop :=
  (∀ (n : Bytes 16) (clen m : Nat), 1 ≤ clen → clen ≤ 16 →
    ((fun k => incr k clen)^[m] n = n ↔ 256 ^ clen ∣ m)) ∧
  (∀ (s : State) (k : Nat), 1 ≤ s.clen.toNat → s.clen.toNat ≤ 16 →
    blockSeq s (k + 256 ^ s.clen.toNat) = blockSeq s k)

/-- R236: NEXT, completed or refused, from every state, with everything it leaves alone. -/
def Obligations.NextCommandProducesOneBlock : Prop :=
  (∀ s : State, s.valid = true → ∃ t, exec .next s = .next t ∧
    t.architectural = { s with
      out := blockFn s.key0 s.key1 s.nonce (if s.k256 then Config.const256 else Config.const128)
      nonce := incr s.nonce s.clen.toNat
      err := 0
      phase := .idle }.architectural) ∧
  (∀ s : State, s.valid = false → exec .next s = .next { s with err := 5, fault := true, phase := .idle }) ∧
  decode 0x00000003 = .ok .next ∧
  (∀ (w : Word) (s : State), fieldOp w = 0x03 → fieldA w ≠ 0 ∨ fieldB w ≠ 0 ∨ fieldRsv w ≠ 0 →
    runCommand w s = .next (raise .opcode s))

/-- R238, on the machine: a script of `N` NEXT commands. -/
def Obligations.NthBlockFollowsNIncrements : Prop :=
  ∀ (s : State) (n : Nat), s.valid = true →
    ∃ t : State, run (n + 1) (s.withScript (nextScript (n + 1))) = .next t ∧
      t.out = blockFn s.key0 s.key1 (nonceAfter s n) (constOf s.k256) ∧ t.nonce = nonceAfter s (n + 1)

/-! ### Stream XOR -/

/-- R253 and R255: a completed XOR in closed form, with everything it leaves alone; its refusals; its words. -/
def Obligations.XorCommandClosedForm : Prop :=
  (∀ (s : State) (n : Nat), s.valid = true → s.rem.toNat ≤ 64 → n ≤ 64 →
    ∃ t, exec (.xor n n) s = .next t ∧
      (∀ i < 64, byteAt t.dout i =
        if i < n then
          byteAt s.din i ^^^
            (if i < s.rem.toNat then byteAt s.buf (64 - s.rem.toNat + i) else byteAt (blockSeq s 0) (i - s.rem.toNat))
        else byteAt s.dout i) ∧
      t.rem.toNat = (if n ≤ s.rem.toNat then s.rem.toNat - n else 64 - (n - s.rem.toNat)) ∧
      t.architectural = { s with
        dout := t.dout
        rem := t.rem
        buf := if n ≤ s.rem.toNat then s.buf else blockSeq s 0
        nonce := if n ≤ s.rem.toNat then s.nonce else incr s.nonce s.clen.toNat
        err := 0
        phase := .idle }.architectural) ∧
  (∀ (lenIn lenOut : Nat) (s : State), s.valid = false →
    exec (.xor lenIn lenOut) s = .next { s with err := 5, fault := true, phase := .idle }) ∧
  (∀ (lenIn lenOut : Nat) (s : State), s.valid = true → lenIn ≠ lenOut →
    exec (.xor lenIn lenOut) s = .next { s with err := 4, fault := true, phase := .idle }) ∧
  (∀ (len : Nat) (s : State), s.valid = true → 64 < len →
    exec (.xor len len) s = .next { s with err := 6, fault := true, phase := .idle }) ∧
  (∀ lenIn < 256, ∀ lenOut < 256,
    decode (BitVec.ofNat 32 (0x04 + 256 * lenIn + 65536 * lenOut)) = .ok (.xor lenIn lenOut)) ∧
  (∀ (w : Word) (s : State), fieldOp w = 0x04 → fieldRsv w ≠ 0 → runCommand w s = .next (raise .opcode s))

/-- R254. -/
def Obligations.ZeroLengthXorIsANoOp : Prop :=
  decode 0x00000004 = .ok (.xor 0 0) ∧
  (∀ s : State, s.valid = true → exec (.xor 0 0) s = .next { s with err := 0, phase := .idle }) ∧
  (∀ s : State, s.valid = false → exec (.xor 0 0) s = .next (raise .nosession s))

/-- R252: what `t` keystream bytes taken from a fresh session leave. -/
def Obligations.KeystreamAccounting : Prop :=
  ∀ (s : State) (t : Nat), s.rem = 0 →
    blocksProduced t s = blocksFor t ∧
    (afterStream t s).nonce = nonceAfter s (blocksFor t) ∧
    (afterStream t s).rem.toNat = (64 - t % 64) % 64 ∧
    (0 < (afterStream t s).rem.toNat → (afterStream t s).buf = blockSeq s (blocksFor t - 1))

/-- R250 and R261: the unbounded stream XOR takes one keystream byte per message byte, in order; from a fresh session byte `t` of
the keystream is byte `t mod 64` of block `t/64`, and `ceil(L/64)` blocks are produced. -/
def Obligations.StreamXorsTheKeystream : Prop :=
  (∀ (s : State) (message : List Byte),
    (xorStream message s).length = message.length ∧
    ∀ (t : Nat) (m : Byte), message[t]? = some m →
      (xorStream message s)[t]? = some (m ^^^ takenByte (afterStream t s))) ∧
  (∀ (s : State) (message : List Byte), s.rem = 0 →
    (∀ (t : Nat) (m : Byte), message[t]? = some m → (xorStream message s)[t]? = some (m ^^^ keystreamByte s t)) ∧
    blocksProduced message.length s = blocksFor message.length)

/-- R258: any cutting of a message into XOR commands gives the unbounded stream's output and end. -/
def Obligations.StreamingEquivalence : Prop :=
  ∀ (s u : State) (chunks : List (List Byte)) (out : List Byte), s.valid = true → s.rem.toNat ≤ 64 →
    ChunkRun s chunks out u →
    out = xorStream chunks.flatten s ∧
    u.nonce = (afterStream chunks.flatten.length s).nonce ∧
    u.rem = (afterStream chunks.flatten.length s).rem ∧
    (∀ i, 64 - u.rem.toNat ≤ i → byteAt u.buf i = byteAt (afterStream chunks.flatten.length s).buf i) ∧
    (s.rem = 0 → ∀ (t : Nat) (m : Byte), chunks.flatten[t]? = some m → out[t]? = some (m ^^^ keystreamByte s t))

/-- R260: from the same session, sending the ciphertext in any chunks gives the message back and leaves the same session. -/
def Obligations.DecryptionIsEncryption : Prop :=
  (∀ (s : State) (message : List Byte), xorStream (xorStream message s) s = message) ∧
  (∀ (s s' u u' : State) (chunks chunks' : List (List Byte)) (out out' : List Byte),
    s.valid = true → s.rem.toNat ≤ 64 → sameSession s s' →
    ChunkRun s chunks out u → ChunkRun s' chunks' out' u' → chunks'.flatten = out →
    out' = chunks.flatten ∧ sameSession u u')

/-- R259: NEXT in the middle of an XOR stream. -/
def Obligations.NextRemovesOneBlockFromTheStream : Prop :=
  ∀ (s : State) (n : Nat), s.valid = true → s.rem.toNat ≤ 64 → n ≤ 64 →
    ∃ t u, exec .next s = .next t ∧ exec (.xor n n) t = .next u ∧ t.out = blockSeq s 0 ∧
      ∀ i < n, byteAt u.dout i = byteAt s.din i ^^^
        (if i < s.rem.toNat then byteAt s.buf (64 - s.rem.toNat + i) else byteAt (blockSeq s 1) (i - s.rem.toNat))

/-! ### Invariants, reset, and rules about the whole machine -/

/-- The invariants of 10_state.md section 7 hold at reset. -/
def Obligations.ResetMeetsTheInvariant : Prop := State.reset.Inv

/-- Every step keeps the invariants of 10_state.md section 7, from every state that meets them. -/
def Obligations.StepKeepsTheInvariant : Prop :=
  ∀ s t : State, s.Inv → step s = .next t → t.Inv

/-- R300, without the registers R51 leaves unspecified: whatever the state, the event leaves the hardware as after reset. The
host's own script and read log are no part of the hardware. -/
def Obligations.ResetEventZeroesTheState : Prop :=
  (∀ s : State, ∃ t, hostOp .reset s = .next t ∧
    t.architectural = { State.reset with script := t.script, readLog := t.readLog }.architectural ∧ statusWord t = 0) ∧
  statusWord State.reset = 0 ∧
  State.reset.key0 = zeroBytes 16 ∧ State.reset.key1 = zeroBytes 16 ∧ State.reset.nonce = zeroBytes 16 ∧
  State.reset.buf = zeroBytes 64 ∧ State.reset.clen = 0 ∧ State.reset.k256 = false ∧ State.reset.rem = 0 ∧
  State.reset.valid = false ∧ State.reset.err = 0 ∧ State.reset.fault = false ∧ State.reset.keyin = zeroBytes 32 ∧
  State.reset.noncein = zeroBytes 16 ∧ State.reset.constin = zeroBytes 16 ∧ State.reset.din = zeroBytes 64 ∧
  State.reset.dout = zeroBytes 64 ∧ State.reset.out = zeroBytes 64 ∧ State.reset.phase = .idle

/-- Without a session no command reads the session registers (10_state.md section 7, R50 (6)): replacing them changes nothing
but themselves. -/
def Obligations.DeadSessionIsReadByNoCommand : Prop :=
  ∀ (i : Instr) (s t : State) (k0 k1 n : Bytes 16) (c : BitVec 5) (k : Bool) (b : Bytes 64) (r : BitVec 7),
    s.valid = false → exec i s = .next t →
    exec i (withSession s k0 k1 n c k b r) = .next (if t.valid then t else withSession t k0 k1 n c k b r)

/-- Which registers each command may write (10_state.md section 7, the W entries of R55). -/
def Obligations.CommandsWriteOnlyTheirRegisters : Prop :=
  ∀ (i : Instr) (s t : State), exec i s = .next t →
    (t.keyin = s.keyin ∧ t.noncein = s.noncein ∧ t.constin = s.constin ∧ t.din = s.din ∧ t.script = s.script ∧
      t.readLog = s.readLog) ∧
    ((∀ a b, i ≠ .xor a b) → t.dout = s.dout) ∧
    (((∀ raw, i ≠ .block raw) ∧ i ≠ .next) → t.out = s.out) ∧
    (((∀ k, i ≠ .initStd k) ∧ ∀ k c, i ≠ .initCustom k c) →
      t.key0 = s.key0 ∧ t.key1 = s.key1 ∧ t.k256 = s.k256 ∧ t.clen = s.clen ∧ t.valid = s.valid) ∧
    (((∃ raw, i = .block raw) ∨ i = .next) → t.buf = s.buf ∧ t.rem = s.rem) ∧
    ((∃ raw, i = .block raw) → t.nonce = s.nonce)

/-- A step changes the keys, the constant selector, the counter length or a byte outside the counter region only when it is a
reset or a completed INIT (10_state.md section 2). -/
def Obligations.OnlyInitAndResetChangeTheSessionKey : Prop :=
  ∀ s t : State, step s = .next t →
    (t.key0 = s.key0 ∧ t.key1 = s.key1 ∧ t.k256 = s.k256 ∧ t.clen = s.clen ∧
      ∀ i, s.clen.toNat ≤ i → byteAt t.nonce i = byteAt s.nonce i) ∨
    ∃ op rest, s.script = op :: rest ∧ endsOrStartsSession op t

/-! ### The register window and the host's script -/

/-- The step runs the decoded command of the host's `CMD` write, and an illegal word raises `ERR_OPCODE`; `CMD` reads 0 (R47). -/
def Obligations.CommandWriteRunsTheCommand : Prop :=
  (∀ (s : State) (w : Word) (i : Instr) (rest : List HostOp), s.script = .write 0x000 4 w :: rest → decode w = .ok i →
    step s = exec i { s with script := rest }) ∧
  (∀ (s : State) (w : Word) (e : IllegalWord) (rest : List HostOp), s.script = .write 0x000 4 w :: rest →
    decode w = .error e → step s = .next (raise .opcode { s with script := rest })) ∧
  (∀ s : State, hostRead 0x000 4 s = .next { s with readLog := s.readLog ++ [0] }) ∧
  (∀ w : Word, fieldOp w = w.extractLsb' 0 8 ∧ fieldA w = w.extractLsb' 8 8 ∧ fieldB w = w.extractLsb' 16 8 ∧
    fieldRsv w = w.extractLsb' 24 8)

/-- Accesses outside the interface stop (20_memory.md sections 1 and 2), and an aligned 32-bit access to a mapped offset always has
a next state. The names of the two stops, and which is given where both apply, are the model's choice (log 3). -/
def Obligations.AccessesOutsideTheInterfaceStop : Prop :=
  (∀ (off : Offset) (n : Nat) (v : Word) (s : State), n ≠ 4 ∨ off.toNat % 4 ≠ 0 →
    hostWrite off n v s = .refused (.notAlignedWord off n) ∧ hostRead off n s = .refused (.notAlignedWord off n)) ∧
  (∀ (off : Offset) (v : Word) (s : State), off.toNat % 4 = 0 →
    (0x008 ≤ off.toNat ∧ off.toNat < 0x010) ∨ (0x060 ≤ off.toNat ∧ off.toNat < 0x080) ∨ 0x140 ≤ off.toNat →
    hostWrite off 4 v s = .fault (.unmappedOffset off) ∧ hostRead off 4 s = .fault (.unmappedOffset off)) ∧
  (∀ (off : Offset) (v : Word) (s : State), off.toNat % 4 = 0 →
    ¬ ((0x008 ≤ off.toNat ∧ off.toNat < 0x010) ∨ (0x060 ≤ off.toNat ∧ off.toNat < 0x080) ∨ 0x140 ≤ off.toNat) →
    completes (hostWrite off 4 v s) ∧ completes (hostRead off 4 s))

/-- R71 and R78 for the arrays: where each word stands, what a read returns, and that a write to a staging register is read
back (or, for `KEYIN`, held). -/
def Obligations.ArrayRegistersOfTheWindow : Prop :=
  (∀ (i : Nat) (v : Word) (s : State), i < 8 →
    hostWrite (BitVec.ofNat 12 (0x010 + 4 * i)) 4 v s = .next { s with keyin := putWord s.keyin i v }) ∧
  (∀ (i : Nat) (v : Word) (s : State), i < 4 →
    hostWrite (BitVec.ofNat 12 (0x030 + 4 * i)) 4 v s = .next { s with noncein := putWord s.noncein i v } ∧
    hostWrite (BitVec.ofNat 12 (0x040 + 4 * i)) 4 v s = .next { s with constin := putWord s.constin i v } ∧
    hostRead (BitVec.ofNat 12 (0x030 + 4 * i)) 4 s = .next { s with readLog := s.readLog ++ [wordAt s.noncein i] } ∧
    hostRead (BitVec.ofNat 12 (0x040 + 4 * i)) 4 s = .next { s with readLog := s.readLog ++ [wordAt s.constin i] } ∧
    hostRead (BitVec.ofNat 12 (0x050 + 4 * i)) 4 s = .next { s with readLog := s.readLog ++ [wordAt s.nonce i] }) ∧
  (∀ (i : Nat) (v : Word) (s : State), i < 16 →
    hostWrite (BitVec.ofNat 12 (0x080 + 4 * i)) 4 v s = .next { s with din := putWord s.din i v } ∧
    hostRead (BitVec.ofNat 12 (0x080 + 4 * i)) 4 s = .next { s with readLog := s.readLog ++ [wordAt s.din i] } ∧
    hostRead (BitVec.ofNat 12 (0x0C0 + 4 * i)) 4 s = .next { s with readLog := s.readLog ++ [wordAt s.dout i] } ∧
    hostRead (BitVec.ofNat 12 (0x100 + 4 * i)) 4 s = .next { s with readLog := s.readLog ++ [wordAt s.out i] })

/-- R76 and R49: write-only registers read 0, read-only registers ignore writes, and `NONCECUR` shows `nonce` whatever `valid`
is. -/
def Obligations.WriteOnlyAndReadOnlyRegisters : Prop :=
  (∀ (i : Nat) (s : State), i < 8 →
    hostRead (BitVec.ofNat 12 (0x010 + 4 * i)) 4 s = .next { s with readLog := s.readLog ++ [0] }) ∧
  (∀ s : State, hostRead 0x000 4 s = .next { s with readLog := s.readLog ++ [0] }) ∧
  (∀ (v : Word) (s : State), hostWrite 0x004 4 v s = .next s) ∧
  (∀ (i : Nat) (v : Word) (s : State), i < 4 → hostWrite (BitVec.ofNat 12 (0x050 + 4 * i)) 4 v s = .next s) ∧
  (∀ (i : Nat) (v : Word) (s : State), i < 16 → hostWrite (BitVec.ofNat 12 (0x0C0 + 4 * i)) 4 v s = .next s ∧
    hostWrite (BitVec.ofNat 12 (0x100 + 4 * i)) 4 v s = .next s) ∧
  (∀ (i : Nat) (s : State), i < 4 →
    hostRead (BitVec.ofNat 12 (0x050 + 4 * i)) 4 s = .next { s with readLog := s.readLog ++ [wordAt s.nonce i] })

/-- R77: reads change nothing but the read log, and a write that is not to `CMD` changes the window at its own offset only, and
no state behind the window. -/
def Obligations.OnlyCommandWritesHaveSideEffects : Prop :=
  (∀ (off : Offset) (n : Nat) (s t : State), hostRead off n s = .next t →
    t = { s with readLog := s.readLog ++ [windowWord off s] } ∧
    ∀ off' : Offset, windowWord off' t = windowWord off' s) ∧
  (∀ (off : Offset) (n : Nat) (v : Word) (s t : State), off ≠ 0x000 → hostWrite off n v s = .next t →
    t = { s with keyin := t.keyin, noncein := t.noncein, constin := t.constin, din := t.din } ∧
    (∀ off' : Offset, off'.toNat % 4 = 0 → off' ≠ off → windowWord off' t = windowWord off' s) ∧
    ∀ k < 32, ¬ (0x010 + k < off.toNat + 4 ∧ off.toNat ≤ 0x010 + k) → byteAt t.keyin k = byteAt s.keyin k)

/-- R48. -/
def Obligations.StatusRegisterLayout : Prop :=
  (∀ s : State, (statusWord s).toNat =
    s.err.toNat + 16 * s.valid.toNat + 32 * s.fault.toNat + 64 * s.k256.toNat + 256 * s.clen.toNat + 65536 * s.rem.toNat) ∧
  (∀ s : State, (statusWord s).extractLsb' 0 4 = s.err ∧ (statusWord s).getLsbD 4 = s.valid ∧
    (statusWord s).getLsbD 5 = s.fault ∧ (statusWord s).getLsbD 6 = s.k256 ∧ (statusWord s).getLsbD 7 = false ∧
    (statusWord s).extractLsb' 8 5 = s.clen ∧ (statusWord s).extractLsb' 13 3 = 0 ∧
    (statusWord s).extractLsb' 16 7 = s.rem ∧ (statusWord s).extractLsb' 23 9 = 0) ∧
  (∀ s : State, hostRead 0x004 4 s = .next { s with readLog := s.readLog ++ [statusWord s] }) ∧
  (∀ (v : Word) (s : State), hostWrite 0x004 4 v s = .next s) ∧
  statusWord State.reset = 0

/-- No host read depends on key material, on the unconsumed keystream or on the working registers (10_state.md section 7,
R53). -/
def Obligations.HostReadsRevealNoSecret : Prop :=
  ∀ (off : Offset) (n : Nat) (s : State) (k0 k1 : Bytes 16) (b : Bytes 64) (key : Bytes 32) (x j : Words),
    (∀ t, hostRead off n s = .next t →
      hostRead off n (withSecrets s k0 k1 b key x j) = .next (withSecrets t k0 k1 b key x j)) ∧
    (∀ f, hostRead off n s = .fault f → hostRead off n (withSecrets s k0 k1 b key x j) = .fault f) ∧
    (∀ r, hostRead off n s = .refused r → hostRead off n (withSecrets s k0 k1 b key x j) = .refused r)

/-- R81: NEXT and XOR do not depend on the staging registers an INIT or BLOCK samples, and writing those leaves the session
alone. -/
def Obligations.StagingWritesDoNotChangeTheSession : Prop :=
  (∀ (i : Instr) (s t : State) (key : Bytes 32) (nonce const : Bytes 16), i = .next ∨ (∃ a b, i = .xor a b) →
    exec i s = .next t → exec i (withStaging s key nonce const) = .next (withStaging t key nonce const)) ∧
  (∀ (off : Offset) (n : Nat) (v : Word) (s t : State), off ≠ 0x000 → hostWrite off n v s = .next t → sameSession s t)

/-- A script inside the interface never stops the machine, whatever its commands and its length (20_memory.md sections 1 and 3;
60_exceptions.md section 2). -/
def Obligations.InterfaceScriptsNeverStop : Prop :=
  ∀ (s : State) (k : Nat), scriptInInterface s = true → ∃ t : State, run k s = .next t

/-- The pseudo-operations LDKEY, LDNONCE and LDDATA on the machine (30_encoding.md section 4, R109). -/
def Obligations.LoadPseudoOperations : Prop :=
  (∀ (s : State) (hex : List Byte) (rest : List HostOp), hex.length = 16 ∨ hex.length = 32 →
    ∃ t : State, run (hex.length / 4) (s.withScript (ldKey hex ++ rest)) = .next t ∧
      t = { s with keyin := t.keyin, script := rest } ∧
      ∀ i < 32, byteAt t.keyin i = if i < hex.length then hexByte hex i else byteAt s.keyin i) ∧
  (∀ (s : State) (hex : List Byte) (rest : List HostOp), hex.length = 8 ∨ hex.length = 16 →
    ∃ t : State, run (hex.length / 4) (s.withScript (ldNonce hex ++ rest)) = .next t ∧
      t = { s with noncein := t.noncein, script := rest } ∧
      ∀ i < 16, byteAt t.noncein i = if i < hex.length then hexByte hex i else byteAt s.noncein i) ∧
  (∀ (s : State) (hex : List Byte) (rest : List HostOp), hex.length ≤ 64 →
    ∃ t : State, run ((hex.length + 3) / 4) (s.withScript (ldData hex ++ rest)) = .next t ∧
      t = { s with din := t.din, script := rest } ∧
      ∀ i < 64, byteAt t.din i = if i < 4 * ((hex.length + 3) / 4) then hexByte hex i else byteAt s.din i)

/-! ### The sequencer -/

/-- The sequencer of R40, run phase by phase from `CHECK`, is back in `IDLE` within a fixed number of steps and has computed the
command: the same architectural state as `exec` (10_state.md section 4, 41_quarter_round_and_rounds.md section 3). -/
def Obligations.SequencerComputesTheCommand : Prop :=
  ∀ (i : Instr) (s : State), s.Inv →
    ∃ (n : Nat) (t : State), n ≤ 170 ∧ exec i s = .next t ∧
      (seqRun i n (seqStart s)).core.phase = .idle ∧
      (seqRun i n (seqStart s)).core.architectural = t.architectural

/-- BLOCK takes exactly 80 steps in the phase `ROUND`, whatever the state, and each of them is one quarter-round: the step after
`n` steps runs lane `(n - 2) mod 4` of round `(n - 2) / 4` on the working words (R158, R316). One quarter-round a step is the
model's choice (log 8). -/
def Obligations.BlockTakesEightyQuarterRounds : Prop :=
  ∀ (raw : Bool) (s : State),
    (∀ n, (seqRun (.block raw) n (seqStart s)).core.phase = .round ↔ 2 ≤ n ∧ n < 82) ∧
    (∀ n, 2 ≤ n → n < 82 →
      (seqRun (.block raw) (n + 1) (seqStart s)).core.x =
        qrLane (laneOf ((n - 2) / 4) (Fin.ofNat 4 (n - 2))) (seqRun (.block raw) n (seqStart s)).core.x) ∧
    (seqRun (.block raw) (if raw then 83 else 84) (seqStart s)).core.phase = .idle
end

