-- ==== Sys2Proof/Laws/Bytes.lean ====
section
/-! SUPPORT. The laws of byte arrays: reading after writing, slices, and the word view (R14, R15, R136). -/

namespace Sys2Proof.Machine

variable {n m : Nat}

theorem byteAt_eq_getElem (a : Bytes n) {i : Nat} (h : i < n) : byteAt a i = a[i] := by
  simp [byteAt, h]

theorem byteAt_outside (a : Bytes n) {i : Nat} (h : n ≤ i) : byteAt a i = 0 := by
  simp [byteAt, Nat.not_lt.mpr h]

/-- Two arrays that read alike at every index are equal. -/
theorem bytes_ext {a b : Bytes n} (h : ∀ i < n, byteAt a i = byteAt b i) : a = b := by
  apply Vector.ext
  intro i hi
  simpa [byteAt_eq_getElem, hi] using h i hi

/-- Reading any index after one byte is written. -/
theorem byteAt_putByte (a : Bytes n) (i k : Nat) (v : Byte) :
    byteAt (putByte a i v) k = if k = i ∧ i < n then v else byteAt a k := by
  unfold byteAt putByte
  rw [Vector.getElem?_setIfInBounds]
  by_cases hk : k = i
  · subst hk
    by_cases hn : k < n <;> simp [hn]
  · simp [hk, Ne.symm hk]

theorem byteAt_putByte_same (a : Bytes n) {i : Nat} (h : i < n) (v : Byte) : byteAt (putByte a i v) i = v := by
  simp [byteAt_putByte, h]

theorem byteAt_putByte_other (a : Bytes n) {i k : Nat} (h : k ≠ i) (v : Byte) :
    byteAt (putByte a i v) k = byteAt a k := by
  simp [byteAt_putByte, h]

theorem byteAt_ofFn (f : Fin n → Byte) {i : Nat} (h : i < n) : byteAt (Vector.ofFn f) i = f ⟨i, h⟩ := by
  simp [byteAt, h]

theorem byteAt_slice (a : Bytes n) (lo : Nat) {len i : Nat} (h : i < len) :
    byteAt (slice a lo len) i = byteAt a (lo + i) := by
  simp [slice, byteAt_ofFn _ h]

@[simp] theorem byteAt_zeroBytes (k i : Nat) : byteAt (zeroBytes k) i = 0 := by
  by_cases h : i < k <;> simp [byteAt, zeroBytes, h]

theorem byteAt_append (a : Bytes n) (b : Bytes m) (i : Nat) :
    byteAt (a ++ b) i = if i < n then byteAt a i else byteAt b (i - n) := by
  unfold byteAt
  rw [Vector.getElem?_append]
  split <;> rfl

/-- A slice of a whole array is the array. -/
@[simp] theorem slice_all (a : Bytes n) : slice a 0 n = a :=
  bytes_ext fun i hi => by simp [byteAt_slice _ _ hi]

theorem slice_append_left (a : Bytes n) (b : Bytes m) : slice (a ++ b) 0 n = a :=
  bytes_ext fun i hi => by simp [byteAt_slice _ _ hi, byteAt_append, hi]

theorem slice_append_right (a : Bytes n) (b : Bytes m) : slice (a ++ b) n m = b :=
  bytes_ext fun i hi => by simp [byteAt_slice _ _ hi, byteAt_append]

/-- Bit `i` of a word built from four bytes. -/
theorem getLsbD_le32 (b0 b1 b2 b3 : Byte) (i : Nat) :
    (le32 b0 b1 b2 b3).getLsbD i =
      if i < 8 then b0.getLsbD i else if i < 16 then b1.getLsbD (i - 8)
      else if i < 24 then b2.getLsbD (i - 16) else b3.getLsbD (i - 24) := by
  show (b3 ++ b2 ++ b1 ++ b0).getLsbD i = _
  simp only [BitVec.getLsbD_append]
  repeat' split
  all_goals first | rfl | omega

/-- The four byte fields of a word built from four bytes. -/
theorem extract_le32 (b0 b1 b2 b3 : Byte) :
    (le32 b0 b1 b2 b3).extractLsb' 0 8 = b0 ∧ (le32 b0 b1 b2 b3).extractLsb' 8 8 = b1 ∧
    (le32 b0 b1 b2 b3).extractLsb' 16 8 = b2 ∧ (le32 b0 b1 b2 b3).extractLsb' 24 8 = b3 := by
  refine ⟨?_, ?_, ?_, ?_⟩ <;>
  · apply BitVec.eq_of_getLsbD_eq
    intro i hi
    simp only [BitVec.getLsbD_extractLsb', getLsbD_le32, hi, decide_true, Bool.true_and]
    repeat' split
    all_goals first | omega | (congr 1; omega)

/-- Storing a loaded word gives its bytes back. -/
theorem st32_le32 (b0 b1 b2 b3 : Byte) : st32 (le32 b0 b1 b2 b3) = #v[b0, b1, b2, b3] := by
  obtain ⟨h0, h1, h2, h3⟩ := extract_le32 b0 b1 b2 b3
  simp [st32, h0, h1, h2, h3]

/-- Loading the four byte fields of a word gives the word back. -/
theorem le32_extract (v : Word) :
    le32 (v.extractLsb' 0 8) (v.extractLsb' 8 8) (v.extractLsb' 16 8) (v.extractLsb' 24 8) = v := by
  apply BitVec.eq_of_getLsbD_eq
  intro i hi
  simp only [getLsbD_le32, BitVec.getLsbD_extractLsb']
  repeat' split
  all_goals rw [show decide (_ < 8) = true from decide_eq_true (by omega)]
  all_goals simp
  all_goals congr 1
  all_goals omega

/-- Byte `k` of a stored word is its byte field `k`. -/
theorem byteAt_st32 (v : Word) {k : Nat} (h : k < 4) : byteAt (st32 v) k = v.extractLsb' (8 * k) 8 := by
  match k, h with
  | 0, _ => rfl
  | 1, _ => rfl
  | 2, _ => rfl
  | 3, _ => rfl

/-- Reading any byte after one word is written (R136). -/
theorem byteAt_putWord (a : Bytes n) (i k : Nat) (v : Word) :
    byteAt (putWord a i v) k =
      if 4 * i ≤ k ∧ k < 4 * i + 4 ∧ k < n then byteAt (st32 v) (k - 4 * i) else byteAt a k := by
  simp only [putWord, byteAt_putByte]
  by_cases h3 : k = 4 * i + 3
  · subst h3; by_cases hn : 4 * i + 3 < n <;> simp [hn]
  by_cases h2 : k = 4 * i + 2
  · subst h2; by_cases hn : 4 * i + 2 < n <;> simp [hn]
  by_cases h1 : k = 4 * i + 1
  · subst h1; by_cases hn : 4 * i + 1 < n <;> simp [hn]
  by_cases h0 : k = 4 * i
  · subst h0; by_cases hn : 4 * i < n <;> simp [hn]
  · rw [if_neg (by tauto), if_neg (by tauto), if_neg (by tauto), if_neg (by tauto), if_neg (by omega)]

/-- The written word reads back. -/
theorem wordAt_putWord_same (a : Bytes n) {i : Nat} (h : 4 * i + 4 ≤ n) (v : Word) : wordAt (putWord a i v) i = v := by
  have hb : ∀ k < 4, byteAt (putWord a i v) (4 * i + k) = v.extractLsb' (8 * k) 8 := fun k hk => by
    rw [byteAt_putWord, if_pos (by omega), Nat.add_sub_cancel_left, byteAt_st32 v hk]
  have h0 := hb 0 (by omega)
  simp only [Nat.add_zero, Nat.mul_zero] at h0
  rw [wordAt, h0, hb 1 (by omega), hb 2 (by omega), hb 3 (by omega)]
  exact le32_extract v

/-- The other words of the array are unchanged. -/
theorem wordAt_putWord_other (a : Bytes n) {i k : Nat} (h : k ≠ i) (v : Word) :
    wordAt (putWord a i v) k = wordAt a k := by
  simp only [wordAt, byteAt_putWord]
  rw [if_neg (by omega), if_neg (by omega), if_neg (by omega), if_neg (by omega)]

end Sys2Proof.Machine
end

