-- ==== Sys2Proof/Laws/Decode.lean ====
section
/-! SUPPORT. The fields of a command word and the five row tests, field by field (R100, R103). -/

namespace Sys2Proof.Machine

/-- A word is its four fields, byte by byte (R100). -/
theorem le32_fields (w : Word) : le32 (fieldOp w) (fieldA w) (fieldB w) (fieldRsv w) = w := le32_extract w

theorem packFields_eq_le32 (op a b : Byte) : packFields op a b = le32 op a b 0 := rfl

/-- The fields of a packed word. -/
theorem fields_packFields (op a b : Byte) :
    fieldOp (packFields op a b) = op ∧ fieldA (packFields op a b) = a ∧ fieldB (packFields op a b) = b ∧
    fieldRsv (packFields op a b) = 0 := extract_le32 op a b 0

/-- Packing the fields of a word with `RSV = 0` gives the word back. -/
theorem packFields_fields (w : Word) (h : fieldRsv w = 0) : packFields (fieldOp w) (fieldA w) (fieldB w) = w := by
  rw [packFields_eq_le32, ← h, le32_fields]

/-- Masking acts byte by byte. -/
theorem le32_and (a b c d e f g h : Byte) :
    le32 a b c d &&& le32 e f g h = le32 (a &&& e) (b &&& f) (c &&& g) (d &&& h) := by
  apply BitVec.eq_of_getLsbD_eq
  intro i hi
  simp only [BitVec.getLsbD_and, getLsbD_le32]
  repeat' split
  all_goals rfl

theorem le32_inj (a b c d e f g h : Byte) : le32 a b c d = le32 e f g h ↔ a = e ∧ b = f ∧ c = g ∧ d = h := by
  constructor
  · intro H
    obtain ⟨h0, h1, h2, h3⟩ := extract_le32 a b c d
    obtain ⟨g0, g1, g2, g3⟩ := extract_le32 e f g h
    rw [H] at h0 h1 h2 h3
    exact ⟨h0.symm.trans g0, h1.symm.trans g1, h2.symm.trans g2, h3.symm.trans g3⟩
  · rintro ⟨rfl, rfl, rfl, rfl⟩; rfl

/-- A row test is a test of the four fields. -/
theorem hit_iff_masked_fields (mn : String) (m0 m1 m2 m3 p0 p1 p2 p3 : Byte) (w : Word) :
    OpcodeRow.hit ⟨mn, le32 m0 m1 m2 m3, le32 p0 p1 p2 p3⟩ w = true ↔
      fieldOp w &&& m0 = p0 ∧ fieldA w &&& m1 = p1 ∧ fieldB w &&& m2 = p2 ∧ fieldRsv w &&& m3 = p3 := by
  unfold OpcodeRow.hit
  rw [beq_iff_eq]
  conv_lhs => rw [← le32_fields w]
  rw [le32_and, le32_inj]

theorem byte_and_ff (x : Byte) : x &&& 0xFF = x := by revert x; decide
theorem byte_and_zero (x : Byte) : x &&& 0 = 0 := by simp
theorem byte_and_fe (x : Byte) : x &&& 0xFE = 0 ↔ x.toNat / 2 = 0 := by revert x; decide

theorem rowInitStd_hit (w : Word) : rowInitStd.hit w = true ↔ fieldOp w = 1 ∧ fieldB w = 0 ∧ fieldRsv w = 0 := by
  rw [show rowInitStd = ⟨"INIT_STD", le32 0xFF 0 0xFF 0xFF, le32 1 0 0 0⟩ by decide, hit_iff_masked_fields]
  simp only [byte_and_ff, byte_and_zero, true_and]

theorem rowInitCustom_hit (w : Word) : rowInitCustom.hit w = true ↔ fieldOp w = 2 ∧ fieldRsv w = 0 := by
  rw [show rowInitCustom = ⟨"INIT_CUSTOM", le32 0xFF 0 0 0xFF, le32 2 0 0 0⟩ by decide, hit_iff_masked_fields]
  simp only [byte_and_ff, byte_and_zero, true_and]

theorem rowNext_hit (w : Word) :
    rowNext.hit w = true ↔ fieldOp w = 3 ∧ fieldA w = 0 ∧ fieldB w = 0 ∧ fieldRsv w = 0 := by
  rw [show rowNext = ⟨"NEXT", le32 0xFF 0xFF 0xFF 0xFF, le32 3 0 0 0⟩ by decide, hit_iff_masked_fields]
  simp only [byte_and_ff]

theorem rowXor_hit (w : Word) : rowXor.hit w = true ↔ fieldOp w = 4 ∧ fieldRsv w = 0 := by
  rw [show rowXor = ⟨"XOR", le32 0xFF 0 0 0xFF, le32 4 0 0 0⟩ by decide, hit_iff_masked_fields]
  simp only [byte_and_ff, byte_and_zero, true_and]

theorem rowBlock_hit (w : Word) :
    rowBlock.hit w = true ↔ fieldOp w = 5 ∧ (fieldA w).toNat / 2 = 0 ∧ fieldB w = 0 ∧ fieldRsv w = 0 := by
  rw [show rowBlock = ⟨"BLOCK", le32 0xFF 0xFE 0xFF 0xFF, le32 5 0 0 0⟩ by decide, hit_iff_masked_fields]
  simp only [byte_and_ff, byte_and_fe]

end Sys2Proof.Machine
end

