-- ==== Sys2Proof/Laws/State.lean ====
section
/-! SUPPORT. For each named update of the state, what every field reads afterwards: one lemma per field per update. -/

namespace Sys2Proof.Machine

section complete

@[simp] theorem complete_key0 (s : State) : (complete s).key0 = s.key0 := rfl
@[simp] theorem complete_key1 (s : State) : (complete s).key1 = s.key1 := rfl
@[simp] theorem complete_nonce (s : State) : (complete s).nonce = s.nonce := rfl
@[simp] theorem complete_clen (s : State) : (complete s).clen = s.clen := rfl
@[simp] theorem complete_k256 (s : State) : (complete s).k256 = s.k256 := rfl
@[simp] theorem complete_buf (s : State) : (complete s).buf = s.buf := rfl
@[simp] theorem complete_rem (s : State) : (complete s).rem = s.rem := rfl
@[simp] theorem complete_valid (s : State) : (complete s).valid = s.valid := rfl
@[simp] theorem complete_err (s : State) : (complete s).err = 0 := rfl
@[simp] theorem complete_fault (s : State) : (complete s).fault = s.fault := rfl
@[simp] theorem complete_keyin (s : State) : (complete s).keyin = s.keyin := rfl
@[simp] theorem complete_noncein (s : State) : (complete s).noncein = s.noncein := rfl
@[simp] theorem complete_constin (s : State) : (complete s).constin = s.constin := rfl
@[simp] theorem complete_din (s : State) : (complete s).din = s.din := rfl
@[simp] theorem complete_dout (s : State) : (complete s).dout = s.dout := rfl
@[simp] theorem complete_out (s : State) : (complete s).out = s.out := rfl
@[simp] theorem complete_x (s : State) : (complete s).x = s.x := rfl
@[simp] theorem complete_j (s : State) : (complete s).j = s.j := rfl
@[simp] theorem complete_phase (s : State) : (complete s).phase = .idle := rfl
@[simp] theorem complete_r (s : State) : (complete s).r = s.r := rfl
@[simp] theorem complete_q (s : State) : (complete s).q = s.q := rfl
@[simp] theorem complete_ci (s : State) : (complete s).ci = s.ci := rfl
@[simp] theorem complete_freeCount (s : State) : (complete s).freeCount = s.freeCount := rfl
@[simp] theorem complete_script (s : State) : (complete s).script = s.script := rfl
@[simp] theorem complete_readLog (s : State) : (complete s).readLog = s.readLog := rfl

end complete

section raise

@[simp] theorem raise_key0 (e : ErrCode) (s : State) : (raise e s).key0 = s.key0 := rfl
@[simp] theorem raise_key1 (e : ErrCode) (s : State) : (raise e s).key1 = s.key1 := rfl
@[simp] theorem raise_nonce (e : ErrCode) (s : State) : (raise e s).nonce = s.nonce := rfl
@[simp] theorem raise_clen (e : ErrCode) (s : State) : (raise e s).clen = s.clen := rfl
@[simp] theorem raise_k256 (e : ErrCode) (s : State) : (raise e s).k256 = s.k256 := rfl
@[simp] theorem raise_buf (e : ErrCode) (s : State) : (raise e s).buf = s.buf := rfl
@[simp] theorem raise_rem (e : ErrCode) (s : State) : (raise e s).rem = s.rem := rfl
@[simp] theorem raise_valid (e : ErrCode) (s : State) : (raise e s).valid = (s.valid && !e.endsSession) := rfl
@[simp] theorem raise_err (e : ErrCode) (s : State) : (raise e s).err = e.code := rfl
@[simp] theorem raise_fault (e : ErrCode) (s : State) : (raise e s).fault = true := rfl
@[simp] theorem raise_keyin (e : ErrCode) (s : State) : (raise e s).keyin = s.keyin := rfl
@[simp] theorem raise_noncein (e : ErrCode) (s : State) : (raise e s).noncein = s.noncein := rfl
@[simp] theorem raise_constin (e : ErrCode) (s : State) : (raise e s).constin = s.constin := rfl
@[simp] theorem raise_din (e : ErrCode) (s : State) : (raise e s).din = s.din := rfl
@[simp] theorem raise_dout (e : ErrCode) (s : State) : (raise e s).dout = s.dout := rfl
@[simp] theorem raise_out (e : ErrCode) (s : State) : (raise e s).out = s.out := rfl
@[simp] theorem raise_x (e : ErrCode) (s : State) : (raise e s).x = s.x := rfl
@[simp] theorem raise_j (e : ErrCode) (s : State) : (raise e s).j = s.j := rfl
@[simp] theorem raise_phase (e : ErrCode) (s : State) : (raise e s).phase = .idle := rfl
@[simp] theorem raise_r (e : ErrCode) (s : State) : (raise e s).r = s.r := rfl
@[simp] theorem raise_q (e : ErrCode) (s : State) : (raise e s).q = s.q := rfl
@[simp] theorem raise_ci (e : ErrCode) (s : State) : (raise e s).ci = s.ci := rfl
@[simp] theorem raise_freeCount (e : ErrCode) (s : State) : (raise e s).freeCount = s.freeCount := rfl
@[simp] theorem raise_script (e : ErrCode) (s : State) : (raise e s).script = s.script := rfl
@[simp] theorem raise_readLog (e : ErrCode) (s : State) : (raise e s).readLog = s.readLog := rfl

end raise

section keySetup

@[simp] theorem keySetup_key0 (k : Nat) (s : State) : (keySetup k s).key0 = keyFirstHalf s := rfl
@[simp] theorem keySetup_key1 (k : Nat) (s : State) : (keySetup k s).key1 = if k = 32 then keySecondHalf s else keyFirstHalf s := rfl
@[simp] theorem keySetup_nonce (k : Nat) (s : State) : (keySetup k s).nonce = s.nonce := rfl
@[simp] theorem keySetup_clen (k : Nat) (s : State) : (keySetup k s).clen = s.clen := rfl
@[simp] theorem keySetup_k256 (k : Nat) (s : State) : (keySetup k s).k256 = (k == 32) := rfl
@[simp] theorem keySetup_buf (k : Nat) (s : State) : (keySetup k s).buf = s.buf := rfl
@[simp] theorem keySetup_rem (k : Nat) (s : State) : (keySetup k s).rem = s.rem := rfl
@[simp] theorem keySetup_valid (k : Nat) (s : State) : (keySetup k s).valid = s.valid := rfl
@[simp] theorem keySetup_err (k : Nat) (s : State) : (keySetup k s).err = s.err := rfl
@[simp] theorem keySetup_fault (k : Nat) (s : State) : (keySetup k s).fault = s.fault := rfl
@[simp] theorem keySetup_keyin (k : Nat) (s : State) : (keySetup k s).keyin = s.keyin := rfl
@[simp] theorem keySetup_noncein (k : Nat) (s : State) : (keySetup k s).noncein = s.noncein := rfl
@[simp] theorem keySetup_constin (k : Nat) (s : State) : (keySetup k s).constin = s.constin := rfl
@[simp] theorem keySetup_din (k : Nat) (s : State) : (keySetup k s).din = s.din := rfl
@[simp] theorem keySetup_dout (k : Nat) (s : State) : (keySetup k s).dout = s.dout := rfl
@[simp] theorem keySetup_out (k : Nat) (s : State) : (keySetup k s).out = s.out := rfl
@[simp] theorem keySetup_x (k : Nat) (s : State) : (keySetup k s).x = s.x := rfl
@[simp] theorem keySetup_j (k : Nat) (s : State) : (keySetup k s).j = s.j := rfl
@[simp] theorem keySetup_phase (k : Nat) (s : State) : (keySetup k s).phase = s.phase := rfl
@[simp] theorem keySetup_r (k : Nat) (s : State) : (keySetup k s).r = s.r := rfl
@[simp] theorem keySetup_q (k : Nat) (s : State) : (keySetup k s).q = s.q := rfl
@[simp] theorem keySetup_ci (k : Nat) (s : State) : (keySetup k s).ci = s.ci := rfl
@[simp] theorem keySetup_freeCount (k : Nat) (s : State) : (keySetup k s).freeCount = s.freeCount := rfl
@[simp] theorem keySetup_script (k : Nat) (s : State) : (keySetup k s).script = s.script := rfl
@[simp] theorem keySetup_readLog (k : Nat) (s : State) : (keySetup k s).readLog = s.readLog := rfl

end keySetup

section openSession

@[simp] theorem openSession_key0 (n : Bytes 16) (c : Nat) (s : State) : (openSession n c s).key0 = s.key0 := rfl
@[simp] theorem openSession_key1 (n : Bytes 16) (c : Nat) (s : State) : (openSession n c s).key1 = s.key1 := rfl
@[simp] theorem openSession_nonce (n : Bytes 16) (c : Nat) (s : State) : (openSession n c s).nonce = n := rfl
@[simp] theorem openSession_clen (n : Bytes 16) (c : Nat) (s : State) : (openSession n c s).clen = BitVec.ofNat 5 c := rfl
@[simp] theorem openSession_k256 (n : Bytes 16) (c : Nat) (s : State) : (openSession n c s).k256 = s.k256 := rfl
@[simp] theorem openSession_buf (n : Bytes 16) (c : Nat) (s : State) : (openSession n c s).buf = zeroBytes 64 := rfl
@[simp] theorem openSession_rem (n : Bytes 16) (c : Nat) (s : State) : (openSession n c s).rem = 0 := rfl
@[simp] theorem openSession_valid (n : Bytes 16) (c : Nat) (s : State) : (openSession n c s).valid = true := rfl
@[simp] theorem openSession_err (n : Bytes 16) (c : Nat) (s : State) : (openSession n c s).err = s.err := rfl
@[simp] theorem openSession_fault (n : Bytes 16) (c : Nat) (s : State) : (openSession n c s).fault = s.fault := rfl
@[simp] theorem openSession_keyin (n : Bytes 16) (c : Nat) (s : State) : (openSession n c s).keyin = s.keyin := rfl
@[simp] theorem openSession_noncein (n : Bytes 16) (c : Nat) (s : State) : (openSession n c s).noncein = s.noncein := rfl
@[simp] theorem openSession_constin (n : Bytes 16) (c : Nat) (s : State) : (openSession n c s).constin = s.constin := rfl
@[simp] theorem openSession_din (n : Bytes 16) (c : Nat) (s : State) : (openSession n c s).din = s.din := rfl
@[simp] theorem openSession_dout (n : Bytes 16) (c : Nat) (s : State) : (openSession n c s).dout = s.dout := rfl
@[simp] theorem openSession_out (n : Bytes 16) (c : Nat) (s : State) : (openSession n c s).out = s.out := rfl
@[simp] theorem openSession_x (n : Bytes 16) (c : Nat) (s : State) : (openSession n c s).x = s.x := rfl
@[simp] theorem openSession_j (n : Bytes 16) (c : Nat) (s : State) : (openSession n c s).j = s.j := rfl
@[simp] theorem openSession_phase (n : Bytes 16) (c : Nat) (s : State) : (openSession n c s).phase = s.phase := rfl
@[simp] theorem openSession_r (n : Bytes 16) (c : Nat) (s : State) : (openSession n c s).r = s.r := rfl
@[simp] theorem openSession_q (n : Bytes 16) (c : Nat) (s : State) : (openSession n c s).q = s.q := rfl
@[simp] theorem openSession_ci (n : Bytes 16) (c : Nat) (s : State) : (openSession n c s).ci = s.ci := rfl
@[simp] theorem openSession_freeCount (n : Bytes 16) (c : Nat) (s : State) : (openSession n c s).freeCount = s.freeCount := rfl
@[simp] theorem openSession_script (n : Bytes 16) (c : Nat) (s : State) : (openSession n c s).script = s.script := rfl
@[simp] theorem openSession_readLog (n : Bytes 16) (c : Nat) (s : State) : (openSession n c s).readLog = s.readLog := rfl

end openSession

section releaseWork

@[simp] theorem releaseWork_key0 (s : State) : (releaseWork s).key0 = s.key0 := rfl
@[simp] theorem releaseWork_key1 (s : State) : (releaseWork s).key1 = s.key1 := rfl
@[simp] theorem releaseWork_nonce (s : State) : (releaseWork s).nonce = s.nonce := rfl
@[simp] theorem releaseWork_clen (s : State) : (releaseWork s).clen = s.clen := rfl
@[simp] theorem releaseWork_k256 (s : State) : (releaseWork s).k256 = s.k256 := rfl
@[simp] theorem releaseWork_buf (s : State) : (releaseWork s).buf = s.buf := rfl
@[simp] theorem releaseWork_rem (s : State) : (releaseWork s).rem = s.rem := rfl
@[simp] theorem releaseWork_valid (s : State) : (releaseWork s).valid = s.valid := rfl
@[simp] theorem releaseWork_err (s : State) : (releaseWork s).err = s.err := rfl
@[simp] theorem releaseWork_fault (s : State) : (releaseWork s).fault = s.fault := rfl
@[simp] theorem releaseWork_keyin (s : State) : (releaseWork s).keyin = s.keyin := rfl
@[simp] theorem releaseWork_noncein (s : State) : (releaseWork s).noncein = s.noncein := rfl
@[simp] theorem releaseWork_constin (s : State) : (releaseWork s).constin = s.constin := rfl
@[simp] theorem releaseWork_din (s : State) : (releaseWork s).din = s.din := rfl
@[simp] theorem releaseWork_dout (s : State) : (releaseWork s).dout = s.dout := rfl
@[simp] theorem releaseWork_out (s : State) : (releaseWork s).out = s.out := rfl
@[simp] theorem releaseWork_x (s : State) : (releaseWork s).x = Config.freeX s.freeCount := rfl
@[simp] theorem releaseWork_j (s : State) : (releaseWork s).j = Config.freeJ s.freeCount := rfl
@[simp] theorem releaseWork_phase (s : State) : (releaseWork s).phase = s.phase := rfl
@[simp] theorem releaseWork_r (s : State) : (releaseWork s).r = Config.freeR s.freeCount := rfl
@[simp] theorem releaseWork_q (s : State) : (releaseWork s).q = Config.freeQ s.freeCount := rfl
@[simp] theorem releaseWork_ci (s : State) : (releaseWork s).ci = Config.freeCi s.freeCount := rfl
@[simp] theorem releaseWork_freeCount (s : State) : (releaseWork s).freeCount = s.freeCount + 1 := rfl
@[simp] theorem releaseWork_script (s : State) : (releaseWork s).script = s.script := rfl
@[simp] theorem releaseWork_readLog (s : State) : (releaseWork s).readLog = s.readLog := rfl

end releaseWork

section afterProduce

@[simp] theorem afterProduce_key0 (s : State) : (afterProduce s).key0 = s.key0 := rfl
@[simp] theorem afterProduce_key1 (s : State) : (afterProduce s).key1 = s.key1 := rfl
@[simp] theorem afterProduce_nonce (s : State) : (afterProduce s).nonce = incr s.nonce s.clen.toNat := rfl
@[simp] theorem afterProduce_clen (s : State) : (afterProduce s).clen = s.clen := rfl
@[simp] theorem afterProduce_k256 (s : State) : (afterProduce s).k256 = s.k256 := rfl
@[simp] theorem afterProduce_buf (s : State) : (afterProduce s).buf = s.buf := rfl
@[simp] theorem afterProduce_rem (s : State) : (afterProduce s).rem = s.rem := rfl
@[simp] theorem afterProduce_valid (s : State) : (afterProduce s).valid = s.valid := rfl
@[simp] theorem afterProduce_err (s : State) : (afterProduce s).err = s.err := rfl
@[simp] theorem afterProduce_fault (s : State) : (afterProduce s).fault = s.fault := rfl
@[simp] theorem afterProduce_keyin (s : State) : (afterProduce s).keyin = s.keyin := rfl
@[simp] theorem afterProduce_noncein (s : State) : (afterProduce s).noncein = s.noncein := rfl
@[simp] theorem afterProduce_constin (s : State) : (afterProduce s).constin = s.constin := rfl
@[simp] theorem afterProduce_din (s : State) : (afterProduce s).din = s.din := rfl
@[simp] theorem afterProduce_dout (s : State) : (afterProduce s).dout = s.dout := rfl
@[simp] theorem afterProduce_out (s : State) : (afterProduce s).out = s.out := rfl
@[simp] theorem afterProduce_x (s : State) : (afterProduce s).x = Config.freeX s.freeCount := rfl
@[simp] theorem afterProduce_j (s : State) : (afterProduce s).j = Config.freeJ s.freeCount := rfl
@[simp] theorem afterProduce_phase (s : State) : (afterProduce s).phase = s.phase := rfl
@[simp] theorem afterProduce_r (s : State) : (afterProduce s).r = Config.freeR s.freeCount := rfl
@[simp] theorem afterProduce_q (s : State) : (afterProduce s).q = Config.freeQ s.freeCount := rfl
@[simp] theorem afterProduce_ci (s : State) : (afterProduce s).ci = Config.freeCi s.freeCount := rfl
@[simp] theorem afterProduce_freeCount (s : State) : (afterProduce s).freeCount = s.freeCount + 1 := rfl
@[simp] theorem afterProduce_script (s : State) : (afterProduce s).script = s.script := rfl
@[simp] theorem afterProduce_readLog (s : State) : (afterProduce s).readLog = s.readLog := rfl

end afterProduce

section withScript

@[simp] theorem withScript_key0 (s : State) (ops : List HostOp) : (s.withScript ops).key0 = s.key0 := rfl
@[simp] theorem withScript_key1 (s : State) (ops : List HostOp) : (s.withScript ops).key1 = s.key1 := rfl
@[simp] theorem withScript_nonce (s : State) (ops : List HostOp) : (s.withScript ops).nonce = s.nonce := rfl
@[simp] theorem withScript_clen (s : State) (ops : List HostOp) : (s.withScript ops).clen = s.clen := rfl
@[simp] theorem withScript_k256 (s : State) (ops : List HostOp) : (s.withScript ops).k256 = s.k256 := rfl
@[simp] theorem withScript_buf (s : State) (ops : List HostOp) : (s.withScript ops).buf = s.buf := rfl
@[simp] theorem withScript_rem (s : State) (ops : List HostOp) : (s.withScript ops).rem = s.rem := rfl
@[simp] theorem withScript_valid (s : State) (ops : List HostOp) : (s.withScript ops).valid = s.valid := rfl
@[simp] theorem withScript_err (s : State) (ops : List HostOp) : (s.withScript ops).err = s.err := rfl
@[simp] theorem withScript_fault (s : State) (ops : List HostOp) : (s.withScript ops).fault = s.fault := rfl
@[simp] theorem withScript_keyin (s : State) (ops : List HostOp) : (s.withScript ops).keyin = s.keyin := rfl
@[simp] theorem withScript_noncein (s : State) (ops : List HostOp) : (s.withScript ops).noncein = s.noncein := rfl
@[simp] theorem withScript_constin (s : State) (ops : List HostOp) : (s.withScript ops).constin = s.constin := rfl
@[simp] theorem withScript_din (s : State) (ops : List HostOp) : (s.withScript ops).din = s.din := rfl
@[simp] theorem withScript_dout (s : State) (ops : List HostOp) : (s.withScript ops).dout = s.dout := rfl
@[simp] theorem withScript_out (s : State) (ops : List HostOp) : (s.withScript ops).out = s.out := rfl
@[simp] theorem withScript_x (s : State) (ops : List HostOp) : (s.withScript ops).x = s.x := rfl
@[simp] theorem withScript_j (s : State) (ops : List HostOp) : (s.withScript ops).j = s.j := rfl
@[simp] theorem withScript_phase (s : State) (ops : List HostOp) : (s.withScript ops).phase = s.phase := rfl
@[simp] theorem withScript_r (s : State) (ops : List HostOp) : (s.withScript ops).r = s.r := rfl
@[simp] theorem withScript_q (s : State) (ops : List HostOp) : (s.withScript ops).q = s.q := rfl
@[simp] theorem withScript_ci (s : State) (ops : List HostOp) : (s.withScript ops).ci = s.ci := rfl
@[simp] theorem withScript_freeCount (s : State) (ops : List HostOp) : (s.withScript ops).freeCount = s.freeCount := rfl
@[simp] theorem withScript_script (s : State) (ops : List HostOp) : (s.withScript ops).script = ops := rfl
@[simp] theorem withScript_readLog (s : State) (ops : List HostOp) : (s.withScript ops).readLog = s.readLog := rfl

end withScript

section architectural

@[simp] theorem architectural_key0 (s : State) : (s.architectural).key0 = s.key0 := rfl
@[simp] theorem architectural_key1 (s : State) : (s.architectural).key1 = s.key1 := rfl
@[simp] theorem architectural_nonce (s : State) : (s.architectural).nonce = s.nonce := rfl
@[simp] theorem architectural_clen (s : State) : (s.architectural).clen = s.clen := rfl
@[simp] theorem architectural_k256 (s : State) : (s.architectural).k256 = s.k256 := rfl
@[simp] theorem architectural_buf (s : State) : (s.architectural).buf = s.buf := rfl
@[simp] theorem architectural_rem (s : State) : (s.architectural).rem = s.rem := rfl
@[simp] theorem architectural_valid (s : State) : (s.architectural).valid = s.valid := rfl
@[simp] theorem architectural_err (s : State) : (s.architectural).err = s.err := rfl
@[simp] theorem architectural_fault (s : State) : (s.architectural).fault = s.fault := rfl
@[simp] theorem architectural_keyin (s : State) : (s.architectural).keyin = s.keyin := rfl
@[simp] theorem architectural_noncein (s : State) : (s.architectural).noncein = s.noncein := rfl
@[simp] theorem architectural_constin (s : State) : (s.architectural).constin = s.constin := rfl
@[simp] theorem architectural_din (s : State) : (s.architectural).din = s.din := rfl
@[simp] theorem architectural_dout (s : State) : (s.architectural).dout = s.dout := rfl
@[simp] theorem architectural_out (s : State) : (s.architectural).out = s.out := rfl
@[simp] theorem architectural_x (s : State) : (s.architectural).x = zeroWords := rfl
@[simp] theorem architectural_j (s : State) : (s.architectural).j = zeroWords := rfl
@[simp] theorem architectural_phase (s : State) : (s.architectural).phase = s.phase := rfl
@[simp] theorem architectural_r (s : State) : (s.architectural).r = 0 := rfl
@[simp] theorem architectural_q (s : State) : (s.architectural).q = 0 := rfl
@[simp] theorem architectural_ci (s : State) : (s.architectural).ci = 0 := rfl
@[simp] theorem architectural_freeCount (s : State) : (s.architectural).freeCount = 0 := rfl
@[simp] theorem architectural_script (s : State) : (s.architectural).script = s.script := rfl
@[simp] theorem architectural_readLog (s : State) : (s.architectural).readLog = s.readLog := rfl

end architectural

end Sys2Proof.Machine
end

