-- ==== Sys2Proof/Laws/Ops.lean ====
section
/-! SUPPORT. What each shared operation can do: block production and keystream consumption field by field, and, for each
command, the cases of its next state. -/

namespace Sys2Proof.Machine

/-! ### Length checks -/

theorem keyLengthOk_iff (k : Nat) : keyLengthOk k = true ↔ k = 16 ∨ k = 32 := by simp [keyLengthOk]

theorem counterLengthOk_iff (k : Nat) : counterLengthOk k = true ↔ 1 ≤ k ∧ k ≤ 16 := by simp [counterLengthOk]

/-! ### TAKEBYTE (R251) -/

theorem refill_of_rem_ne_zero {s : State} (h : s.rem ≠ 0) : refill s = s := if_neg h

theorem refill_of_rem_eq_zero {s : State} (h : s.rem = 0) :
    refill s = { afterProduce s with buf := producedBlock s, rem := 64 } := if_pos h

@[simp] theorem refill_key0 (s : State) : (refill s).key0 = s.key0 := by unfold refill; split <;> rfl
@[simp] theorem refill_key1 (s : State) : (refill s).key1 = s.key1 := by unfold refill; split <;> rfl
@[simp] theorem refill_clen (s : State) : (refill s).clen = s.clen := by unfold refill; split <;> rfl
@[simp] theorem refill_k256 (s : State) : (refill s).k256 = s.k256 := by unfold refill; split <;> rfl
@[simp] theorem refill_valid (s : State) : (refill s).valid = s.valid := by unfold refill; split <;> rfl
@[simp] theorem refill_err (s : State) : (refill s).err = s.err := by unfold refill; split <;> rfl
@[simp] theorem refill_fault (s : State) : (refill s).fault = s.fault := by unfold refill; split <;> rfl
@[simp] theorem refill_keyin (s : State) : (refill s).keyin = s.keyin := by unfold refill; split <;> rfl
@[simp] theorem refill_noncein (s : State) : (refill s).noncein = s.noncein := by unfold refill; split <;> rfl
@[simp] theorem refill_constin (s : State) : (refill s).constin = s.constin := by unfold refill; split <;> rfl
@[simp] theorem refill_din (s : State) : (refill s).din = s.din := by unfold refill; split <;> rfl
@[simp] theorem refill_dout (s : State) : (refill s).dout = s.dout := by unfold refill; split <;> rfl
@[simp] theorem refill_out (s : State) : (refill s).out = s.out := by unfold refill; split <;> rfl
@[simp] theorem refill_phase (s : State) : (refill s).phase = s.phase := by unfold refill; split <;> rfl
@[simp] theorem refill_script (s : State) : (refill s).script = s.script := by unfold refill; split <;> rfl
@[simp] theorem refill_readLog (s : State) : (refill s).readLog = s.readLog := by unfold refill; split <;> rfl

theorem refill_rem (s : State) : (refill s).rem = if s.rem = 0 then 64 else s.rem := by unfold refill; split <;> rfl
theorem refill_buf (s : State) : (refill s).buf = if s.rem = 0 then producedBlock s else s.buf := by
  unfold refill; split <;> rfl
theorem refill_nonce (s : State) : (refill s).nonce = if s.rem = 0 then incr s.nonce s.clen.toNat else s.nonce := by
  unfold refill; split <;> rfl

@[simp] theorem afterTake_buf (s : State) : (afterTake s).buf = (refill s).buf := rfl
@[simp] theorem afterTake_nonce (s : State) : (afterTake s).nonce = (refill s).nonce := rfl

@[simp] theorem afterTake_key0 (s : State) : (afterTake s).key0 = s.key0 := refill_key0 s
@[simp] theorem afterTake_key1 (s : State) : (afterTake s).key1 = s.key1 := refill_key1 s
@[simp] theorem afterTake_clen (s : State) : (afterTake s).clen = s.clen := refill_clen s
@[simp] theorem afterTake_k256 (s : State) : (afterTake s).k256 = s.k256 := refill_k256 s
@[simp] theorem afterTake_valid (s : State) : (afterTake s).valid = s.valid := refill_valid s
@[simp] theorem afterTake_err (s : State) : (afterTake s).err = s.err := refill_err s
@[simp] theorem afterTake_fault (s : State) : (afterTake s).fault = s.fault := refill_fault s
@[simp] theorem afterTake_keyin (s : State) : (afterTake s).keyin = s.keyin := refill_keyin s
@[simp] theorem afterTake_noncein (s : State) : (afterTake s).noncein = s.noncein := refill_noncein s
@[simp] theorem afterTake_constin (s : State) : (afterTake s).constin = s.constin := refill_constin s
@[simp] theorem afterTake_din (s : State) : (afterTake s).din = s.din := refill_din s
@[simp] theorem afterTake_dout (s : State) : (afterTake s).dout = s.dout := refill_dout s
@[simp] theorem afterTake_out (s : State) : (afterTake s).out = s.out := refill_out s
@[simp] theorem afterTake_phase (s : State) : (afterTake s).phase = s.phase := refill_phase s
@[simp] theorem afterTake_script (s : State) : (afterTake s).script = s.script := refill_script s
@[simp] theorem afterTake_readLog (s : State) : (afterTake s).readLog = s.readLog := refill_readLog s

/-- One byte fewer, or 63 of a new block. -/
theorem afterTake_rem_toNat (s : State) :
    (afterTake s).rem.toNat = if s.rem = 0 then 63 else s.rem.toNat - 1 := by
  show ((refill s).rem - 1).toNat = _
  rw [refill_rem]
  split
  · rfl
  · rename_i h
    have h1 : s.rem.toNat ≠ 0 := fun e => h (BitVec.eq_of_toNat_eq e)
    have h2 := s.rem.isLt
    rw [BitVec.toNat_sub, show BitVec.toNat (1 : BitVec 7) = 1 from rfl]
    omega

/-! ### The XOR loop (R253) -/

@[simp] theorem xorByte_buf (i : Nat) (s : State) : (xorByte i s).buf = (afterTake s).buf := rfl
@[simp] theorem xorByte_nonce (i : Nat) (s : State) : (xorByte i s).nonce = (afterTake s).nonce := rfl
@[simp] theorem xorByte_rem (i : Nat) (s : State) : (xorByte i s).rem = (afterTake s).rem := rfl
theorem xorByte_dout (i : Nat) (s : State) :
    (xorByte i s).dout = putByte s.dout i (byteAt s.din i ^^^ takenByte s) := rfl

@[simp] theorem xorByte_key0 (i : Nat) (s : State) : (xorByte i s).key0 = s.key0 := afterTake_key0 s
@[simp] theorem xorByte_key1 (i : Nat) (s : State) : (xorByte i s).key1 = s.key1 := afterTake_key1 s
@[simp] theorem xorByte_clen (i : Nat) (s : State) : (xorByte i s).clen = s.clen := afterTake_clen s
@[simp] theorem xorByte_k256 (i : Nat) (s : State) : (xorByte i s).k256 = s.k256 := afterTake_k256 s
@[simp] theorem xorByte_valid (i : Nat) (s : State) : (xorByte i s).valid = s.valid := afterTake_valid s
@[simp] theorem xorByte_err (i : Nat) (s : State) : (xorByte i s).err = s.err := afterTake_err s
@[simp] theorem xorByte_fault (i : Nat) (s : State) : (xorByte i s).fault = s.fault := afterTake_fault s
@[simp] theorem xorByte_keyin (i : Nat) (s : State) : (xorByte i s).keyin = s.keyin := afterTake_keyin s
@[simp] theorem xorByte_noncein (i : Nat) (s : State) : (xorByte i s).noncein = s.noncein := afterTake_noncein s
@[simp] theorem xorByte_constin (i : Nat) (s : State) : (xorByte i s).constin = s.constin := afterTake_constin s
@[simp] theorem xorByte_din (i : Nat) (s : State) : (xorByte i s).din = s.din := afterTake_din s
@[simp] theorem xorByte_out (i : Nat) (s : State) : (xorByte i s).out = s.out := afterTake_out s
@[simp] theorem xorByte_phase (i : Nat) (s : State) : (xorByte i s).phase = s.phase := afterTake_phase s
@[simp] theorem xorByte_script (i : Nat) (s : State) : (xorByte i s).script = s.script := afterTake_script s
@[simp] theorem xorByte_readLog (i : Nat) (s : State) : (xorByte i s).readLog = s.readLog := afterTake_readLog s

@[simp] theorem xorLoop_key0 (n i : Nat) (s : State) : (xorLoop n i s).key0 = s.key0 := by
  induction n generalizing i s with
  | zero => rfl
  | succ n ih => rw [xorLoop, ih, xorByte_key0]
@[simp] theorem xorLoop_key1 (n i : Nat) (s : State) : (xorLoop n i s).key1 = s.key1 := by
  induction n generalizing i s with
  | zero => rfl
  | succ n ih => rw [xorLoop, ih, xorByte_key1]
@[simp] theorem xorLoop_clen (n i : Nat) (s : State) : (xorLoop n i s).clen = s.clen := by
  induction n generalizing i s with
  | zero => rfl
  | succ n ih => rw [xorLoop, ih, xorByte_clen]
@[simp] theorem xorLoop_k256 (n i : Nat) (s : State) : (xorLoop n i s).k256 = s.k256 := by
  induction n generalizing i s with
  | zero => rfl
  | succ n ih => rw [xorLoop, ih, xorByte_k256]
@[simp] theorem xorLoop_valid (n i : Nat) (s : State) : (xorLoop n i s).valid = s.valid := by
  induction n generalizing i s with
  | zero => rfl
  | succ n ih => rw [xorLoop, ih, xorByte_valid]
@[simp] theorem xorLoop_err (n i : Nat) (s : State) : (xorLoop n i s).err = s.err := by
  induction n generalizing i s with
  | zero => rfl
  | succ n ih => rw [xorLoop, ih, xorByte_err]
@[simp] theorem xorLoop_fault (n i : Nat) (s : State) : (xorLoop n i s).fault = s.fault := by
  induction n generalizing i s with
  | zero => rfl
  | succ n ih => rw [xorLoop, ih, xorByte_fault]
@[simp] theorem xorLoop_keyin (n i : Nat) (s : State) : (xorLoop n i s).keyin = s.keyin := by
  induction n generalizing i s with
  | zero => rfl
  | succ n ih => rw [xorLoop, ih, xorByte_keyin]
@[simp] theorem xorLoop_noncein (n i : Nat) (s : State) : (xorLoop n i s).noncein = s.noncein := by
  induction n generalizing i s with
  | zero => rfl
  | succ n ih => rw [xorLoop, ih, xorByte_noncein]
@[simp] theorem xorLoop_constin (n i : Nat) (s : State) : (xorLoop n i s).constin = s.constin := by
  induction n generalizing i s with
  | zero => rfl
  | succ n ih => rw [xorLoop, ih, xorByte_constin]
@[simp] theorem xorLoop_din (n i : Nat) (s : State) : (xorLoop n i s).din = s.din := by
  induction n generalizing i s with
  | zero => rfl
  | succ n ih => rw [xorLoop, ih, xorByte_din]
@[simp] theorem xorLoop_out (n i : Nat) (s : State) : (xorLoop n i s).out = s.out := by
  induction n generalizing i s with
  | zero => rfl
  | succ n ih => rw [xorLoop, ih, xorByte_out]
@[simp] theorem xorLoop_phase (n i : Nat) (s : State) : (xorLoop n i s).phase = s.phase := by
  induction n generalizing i s with
  | zero => rfl
  | succ n ih => rw [xorLoop, ih, xorByte_phase]
@[simp] theorem xorLoop_script (n i : Nat) (s : State) : (xorLoop n i s).script = s.script := by
  induction n generalizing i s with
  | zero => rfl
  | succ n ih => rw [xorLoop, ih, xorByte_script]
@[simp] theorem xorLoop_readLog (n i : Nat) (s : State) : (xorLoop n i s).readLog = s.readLog := by
  induction n generalizing i s with
  | zero => rfl
  | succ n ih => rw [xorLoop, ih, xorByte_readLog]

/-! ### The stream XOR (R261) -/

@[simp] theorem afterStream_key0 (n : Nat) (s : State) : (afterStream n s).key0 = s.key0 := by
  induction n generalizing s with
  | zero => rfl
  | succ n ih => rw [afterStream, ih, afterTake_key0]
@[simp] theorem afterStream_key1 (n : Nat) (s : State) : (afterStream n s).key1 = s.key1 := by
  induction n generalizing s with
  | zero => rfl
  | succ n ih => rw [afterStream, ih, afterTake_key1]
@[simp] theorem afterStream_clen (n : Nat) (s : State) : (afterStream n s).clen = s.clen := by
  induction n generalizing s with
  | zero => rfl
  | succ n ih => rw [afterStream, ih, afterTake_clen]
@[simp] theorem afterStream_k256 (n : Nat) (s : State) : (afterStream n s).k256 = s.k256 := by
  induction n generalizing s with
  | zero => rfl
  | succ n ih => rw [afterStream, ih, afterTake_k256]
@[simp] theorem afterStream_valid (n : Nat) (s : State) : (afterStream n s).valid = s.valid := by
  induction n generalizing s with
  | zero => rfl
  | succ n ih => rw [afterStream, ih, afterTake_valid]
@[simp] theorem afterStream_err (n : Nat) (s : State) : (afterStream n s).err = s.err := by
  induction n generalizing s with
  | zero => rfl
  | succ n ih => rw [afterStream, ih, afterTake_err]
@[simp] theorem afterStream_fault (n : Nat) (s : State) : (afterStream n s).fault = s.fault := by
  induction n generalizing s with
  | zero => rfl
  | succ n ih => rw [afterStream, ih, afterTake_fault]
@[simp] theorem afterStream_keyin (n : Nat) (s : State) : (afterStream n s).keyin = s.keyin := by
  induction n generalizing s with
  | zero => rfl
  | succ n ih => rw [afterStream, ih, afterTake_keyin]
@[simp] theorem afterStream_noncein (n : Nat) (s : State) : (afterStream n s).noncein = s.noncein := by
  induction n generalizing s with
  | zero => rfl
  | succ n ih => rw [afterStream, ih, afterTake_noncein]
@[simp] theorem afterStream_constin (n : Nat) (s : State) : (afterStream n s).constin = s.constin := by
  induction n generalizing s with
  | zero => rfl
  | succ n ih => rw [afterStream, ih, afterTake_constin]
@[simp] theorem afterStream_din (n : Nat) (s : State) : (afterStream n s).din = s.din := by
  induction n generalizing s with
  | zero => rfl
  | succ n ih => rw [afterStream, ih, afterTake_din]
@[simp] theorem afterStream_dout (n : Nat) (s : State) : (afterStream n s).dout = s.dout := by
  induction n generalizing s with
  | zero => rfl
  | succ n ih => rw [afterStream, ih, afterTake_dout]
@[simp] theorem afterStream_out (n : Nat) (s : State) : (afterStream n s).out = s.out := by
  induction n generalizing s with
  | zero => rfl
  | succ n ih => rw [afterStream, ih, afterTake_out]
@[simp] theorem afterStream_phase (n : Nat) (s : State) : (afterStream n s).phase = s.phase := by
  induction n generalizing s with
  | zero => rfl
  | succ n ih => rw [afterStream, ih, afterTake_phase]
@[simp] theorem afterStream_script (n : Nat) (s : State) : (afterStream n s).script = s.script := by
  induction n generalizing s with
  | zero => rfl
  | succ n ih => rw [afterStream, ih, afterTake_script]
@[simp] theorem afterStream_readLog (n : Nat) (s : State) : (afterStream n s).readLog = s.readLog := by
  induction n generalizing s with
  | zero => rfl
  | succ n ih => rw [afterStream, ih, afterTake_readLog]

/-- Taking bytes one after another adds up. -/
theorem afterStream_add (m n : Nat) (s : State) : afterStream (m + n) s = afterStream n (afterStream m s) := by
  induction m generalizing s with
  | zero => rw [Nat.zero_add]; rfl
  | succ m ih => rw [Nat.succ_add, afterStream, afterStream, ih]

theorem afterStream_succ (n : Nat) (s : State) : afterStream (n + 1) s = afterTake (afterStream n s) :=
  afterStream_add n 1 s

/-- A message sent in two pieces gives the two outputs, one after the other. -/
theorem xorStream_append (a b : List Byte) (s : State) :
    xorStream (a ++ b) s = xorStream a s ++ xorStream b (afterStream a.length s) := by
  induction a generalizing s with
  | nil => rfl
  | cons m a ih => simp only [List.cons_append, xorStream, ih, List.length_cons, afterStream]

/-! ### The cases of each command's next state -/

theorem execInitStd_cases {klen : Nat} {s t : State} (h : execInitStd klen s = .next t) :
    ((klen = 16 ∨ klen = 32) ∧ t = complete (openSession (standardNonce s) 8 (keySetup klen s))) ∨
    (¬ (klen = 16 ∨ klen = 32) ∧ t = raise .keylen s) := by
  unfold execInitStd at h
  rw [← keyLengthOk_iff]
  split at h <;> (injection h with h; subst h)
  · exact .inl ⟨‹_›, rfl⟩
  · exact .inr ⟨‹_›, rfl⟩

theorem execInitCustom_cases {klen clen : Nat} {s t : State} (h : execInitCustom klen clen s = .next t) :
    ((klen = 16 ∨ klen = 32) ∧ (1 ≤ clen ∧ clen ≤ 16) ∧
      t = complete (openSession s.noncein clen (keySetup klen s))) ∨
    ((klen = 16 ∨ klen = 32) ∧ ¬ (1 ≤ clen ∧ clen ≤ 16) ∧ t = raise .clen s) ∨
    (¬ (klen = 16 ∨ klen = 32) ∧ t = raise .keylen s) := by
  unfold execInitCustom at h
  rw [← keyLengthOk_iff, ← counterLengthOk_iff]
  split at h
  · split at h <;> (injection h with h; subst h)
    · exact .inl ⟨‹_›, ‹_›, rfl⟩
    · exact .inr (.inl ⟨‹_›, ‹_›, rfl⟩)
  · injection h with h; subst h; exact .inr (.inr ⟨‹_›, rfl⟩)

theorem execNext_cases {s t : State} (h : execNext s = .next t) :
    (s.valid = true ∧ t = complete { afterProduce s with out := producedBlock s }) ∨
    (s.valid = false ∧ t = raise .nosession s) := by
  unfold execNext at h
  split at h <;> (injection h with h; subst h)
  · exact .inl ⟨‹_›, rfl⟩
  · exact .inr ⟨Bool.not_eq_true _ ▸ ‹_›, rfl⟩

theorem execXor_cases {lenIn lenOut : Nat} {s t : State} (h : execXor lenIn lenOut s = .next t) :
    (s.valid = true ∧ lenIn = lenOut ∧ lenIn ≤ 64 ∧ t = complete (xorLoop lenIn 0 s)) ∨
    (s.valid = true ∧ lenIn = lenOut ∧ 64 < lenIn ∧ t = raise .range s) ∨
    (s.valid = true ∧ lenIn ≠ lenOut ∧ t = raise .length s) ∨
    (s.valid = false ∧ t = raise .nosession s) := by
  unfold execXor at h
  split at h
  · injection h with h; subst h; exact .inr (.inr (.inr ⟨by simpa using ‹(!s.valid) = true›, rfl⟩))
  have hv : s.valid = true := by simpa using ‹¬ (!s.valid) = true›
  split at h
  · injection h with h; subst h; exact .inr (.inr (.inl ⟨hv, ‹_›, rfl⟩))
  have hl : lenIn = lenOut := by simpa using ‹¬ lenIn ≠ lenOut›
  split at h <;> (injection h with h; subst h)
  · exact .inr (.inl ⟨hv, hl, ‹_›, rfl⟩)
  · exact .inl ⟨hv, hl, Nat.not_lt.mp ‹_›, rfl⟩

theorem execBlock_cases {raw : Bool} {s t : State} (h : execBlock raw s = .next t) :
    t = complete (releaseWork { s with out := stagedBlock raw s }) := by
  injection h with h; exact h.symm

/-- Every command has a next state. -/
theorem exec_isNext (i : Instr) (s : State) : ∃ t, exec i s = .next t := by
  cases i <;> simp only [exec, execInitStd, execInitCustom, execNext, execXor, execBlock] <;> (repeat' split) <;>
    exact ⟨_, rfl⟩

end Sys2Proof.Machine
end

