-- ==== Sys2Proof/Laws/PerInstr.lean ====
section
/-! SUPPORT. Facts stated for every instruction of the table, one lemma per constructor. -/

/-- The word of an instruction matches its own row of the opcode table, whatever its byte counts (R103). -/
def Sys2Proof.Laws.EncodeMatchesRow.Statement (i : Sys2Proof.Instr) : Prop :=
  (Sys2Proof.rowOf i).hit (Sys2Proof.encode i) = true

namespace Sys2Proof.Laws.EncodeMatchesRow

open Sys2Proof Sys2Proof.Machine

theorem initStd (klen : Nat) : Statement (.initStd klen) := by
  obtain ⟨h0, -, h2, h3⟩ := fields_packFields 0x01 (BitVec.ofNat 8 klen) 0
  exact (rowInitStd_hit _).2 ⟨h0, h2, h3⟩

theorem initCustom (klen clen : Nat) : Statement (.initCustom klen clen) := by
  obtain ⟨h0, -, -, h3⟩ := fields_packFields 0x02 (BitVec.ofNat 8 klen) (BitVec.ofNat 8 clen)
  exact (rowInitCustom_hit _).2 ⟨h0, h3⟩

theorem next : Statement .next := (rowNext_hit _).2 (fields_packFields 0x03 0 0)

theorem xor (lenIn lenOut : Nat) : Statement (.xor lenIn lenOut) := by
  obtain ⟨h0, -, -, h3⟩ := fields_packFields 0x04 (BitVec.ofNat 8 lenIn) (BitVec.ofNat 8 lenOut)
  exact (rowXor_hit _).2 ⟨h0, h3⟩

theorem block (raw : Bool) : Statement (.block raw) := by
  obtain ⟨h0, h1, h2, h3⟩ := fields_packFields 0x05 (if raw then 1 else 0) 0
  refine (rowBlock_hit _).2 ⟨h0, ?_, h2, h3⟩
  show (fieldA (packFields 0x05 (if raw then 1 else 0) 0)).toNat / 2 = 0
  rw [h1]
  cases raw <;> rfl

end Sys2Proof.Laws.EncodeMatchesRow
end

