-- ==== Sys2Proof/Laws/Sequencer.lean ====
section
/-! SUPPORT. Runs of the sequencer, and what one step in the phase `ROUND` does to the working words and indices (R40). -/

namespace Sys2Proof.Machine

/-- Runs of the sequencer add up. -/
theorem seqRun_add (i : Instr) (n k : Nat) (m : Running) : seqRun i (n + k) m = seqRun i k (seqRun i n m) := by
  induction n generalizing m with
  | zero => rw [Nat.zero_add]; rfl
  | succ n ih => rw [Nat.succ_add, seqRun, seqRun, ih]

/-- One more step at the end. -/
theorem seqRun_succ (i : Instr) (n : Nat) (m : Running) : seqRun i (n + 1) m = seqStep i (seqRun i n m) :=
  seqRun_add i n 1 m

/-- In `IDLE` the sequencer stays. -/
theorem seqRun_idle (i : Instr) (n : Nat) {m : Running} (h : m.core.phase = .idle) : seqRun i n m = m := by
  induction n with
  | zero => rfl
  | succ n ih => rw [seqRun_succ, ih, seqStep, h]

/-- A step in `ROUND` is `seqRound` on the core. -/
theorem seqStep_round (i : Instr) {m : Running} (h : m.core.phase = .round) :
    seqStep i m = { m with core := seqRound i m.core } := by
  rw [seqStep, h]

/-- A step in `ROUND` runs the quarter-round of lane `q` of round `r`. -/
theorem seqRound_x (i : Instr) (s : State) : (seqRound i s).x = qrLane (laneOf s.r s.q) s.x := by
  unfold seqRound
  dsimp only
  repeat' split
  all_goals rfl

/-- It moves to the next lane. -/
theorem seqRound_q (i : Instr) (s : State) : (seqRound i s).q = s.q + 1 := by
  unfold seqRound
  dsimp only
  repeat' split
  all_goals rfl

/-- It moves to the next round after lane 3, except after the last round. -/
theorem seqRound_r (i : Instr) (s : State) :
    (seqRound i s).r = if s.q = 3 ∧ s.r ≠ 19 then s.r + 1 else s.r := by
  unfold seqRound
  dsimp only
  by_cases hq : s.q = 3 <;> by_cases hr : s.r = 19 <;> simp [hq, hr, enter]

/-- It leaves `ROUND` after lane 3 of round 19 only. -/
theorem seqRound_phase (i : Instr) {s : State} (h : s.phase = .round) :
    (seqRound i s).phase =
      if s.q = 3 ∧ s.r = 19 then (if skipsFeedForward i then .serialize else .feedfwd) else .round := by
  unfold seqRound
  dsimp only
  by_cases hq : s.q = 3 <;> by_cases hr : s.r = 19 <;> simp [hq, hr, enter, h]

end Sys2Proof.Machine
end

