-- ==== Sys2Proof/Laws/Step.lean ====
section
/-! SUPPORT. What one step can do: the register map row by row, and the cases of a host operation and of a step (R71 to R79). -/

namespace Sys2Proof.Machine

/-- The register map as one chain of bounds (R71, R75). -/
theorem regAt_eq (off : Offset) :
    regAt off =
      if off.toNat < 0x004 then some (.cmd, off.toNat / 4)
      else if off.toNat < 0x008 then some (.status, (off.toNat - 0x004) / 4)
      else if off.toNat < 0x010 then none
      else if off.toNat < 0x030 then some (.keyin, (off.toNat - 0x010) / 4)
      else if off.toNat < 0x040 then some (.noncein, (off.toNat - 0x030) / 4)
      else if off.toNat < 0x050 then some (.constin, (off.toNat - 0x040) / 4)
      else if off.toNat < 0x060 then some (.noncecur, (off.toNat - 0x050) / 4)
      else if off.toNat < 0x080 then none
      else if off.toNat < 0x0C0 then some (.din, (off.toNat - 0x080) / 4)
      else if off.toNat < 0x100 then some (.dout, (off.toNat - 0x0C0) / 4)
      else if off.toNat < 0x140 then some (.out, (off.toNat - 0x100) / 4)
      else none := by
  have find : ∀ (row : MapRow) (rows : List MapRow), ((row :: rows).find? fun r => r.holds off.toNat) =
      if row.base ≤ off.toNat ∧ off.toNat < row.base + row.size then some row
      else rows.find? fun r => r.holds off.toNat := fun row rows => by
    rw [List.find?_cons]
    by_cases h : row.base ≤ off.toNat ∧ off.toNat < row.base + row.size
    · rw [if_pos h, show row.holds off.toNat = true by simp [MapRow.holds, h]]
    · rw [if_neg h, show row.holds off.toNat = false by simpa [MapRow.holds] using h]
  simp only [regAt, registerMap, find, List.find?_nil]
  generalize off.toNat = o
  by_cases h4 : o < 4
  · rw [if_pos (by omega), if_pos h4]; rfl
  rw [if_neg (by omega), if_neg h4]
  by_cases h8 : o < 8
  · rw [if_pos (by omega), if_pos h8]; rfl
  rw [if_neg (by omega), if_neg h8]
  by_cases h16 : o < 16
  · rw [if_pos h16, if_neg (by omega), if_neg (by omega), if_neg (by omega), if_neg (by omega), if_neg (by omega), if_neg (by omega), if_neg (by omega)]; rfl
  rw [if_neg h16]
  by_cases h48 : o < 48
  · rw [if_pos (by omega), if_pos h48]; rfl
  rw [if_neg (by omega), if_neg h48]
  by_cases h64 : o < 64
  · rw [if_pos (by omega), if_pos h64]; rfl
  rw [if_neg (by omega), if_neg h64]
  by_cases h80 : o < 80
  · rw [if_pos (by omega), if_pos h80]; rfl
  rw [if_neg (by omega), if_neg h80]
  by_cases h96 : o < 96
  · rw [if_pos (by omega), if_pos h96]; rfl
  rw [if_neg (by omega), if_neg h96]
  by_cases h128 : o < 128
  · rw [if_pos h128, if_neg (by omega), if_neg (by omega), if_neg (by omega)]; rfl
  rw [if_neg h128]
  by_cases h192 : o < 192
  · rw [if_pos (by omega), if_pos h192]; rfl
  rw [if_neg (by omega), if_neg h192]
  by_cases h256 : o < 256
  · rw [if_pos (by omega), if_pos h256]; rfl
  rw [if_neg (by omega), if_neg h256]
  by_cases h320 : o < 320
  · rw [if_pos (by omega), if_pos h320]; rfl
  rw [if_neg (by omega), if_neg h320]
  rfl

/-- The register at an aligned offset: which row of the map, and which word of it (R71). -/
theorem regAt_row {off : Offset} {name : RegName} {i n : Nat} (ha : alignedWord off n = true)
    (h : regAt off = some (name, i)) :
    ∃ row ∈ registerMap, row.name = name ∧ off.toNat = row.base + 4 * i ∧ 4 * i < row.size := by
  simp only [alignedWord, Bool.and_eq_true, beq_iff_eq] at ha
  simp only [regAt, Option.map_eq_some_iff, Prod.mk.injEq] at h
  obtain ⟨row, hrow, rfl, rfl⟩ := h
  have hm := List.mem_of_find?_eq_some hrow
  have hh := List.find?_some hrow
  simp only [MapRow.holds, Bool.and_eq_true, decide_eq_true_eq] at hh
  have hb : row.base % 4 = 0 := (show ∀ r ∈ registerMap, r.base % 4 = 0 by decide) row hm
  exact ⟨row, hm, rfl, by omega, by omega⟩

/-- A name and a word index stand at one offset only. -/
theorem regAt_inj {off off' : Offset} {name : RegName} {i n n' : Nat} (ha : alignedWord off n = true)
    (ha' : alignedWord off' n' = true) (h : regAt off = some (name, i)) (h' : regAt off' = some (name, i)) :
    off = off' := by
  obtain ⟨row, hm, hn, ho, -⟩ := regAt_row ha h
  obtain ⟨row', hm', hn', ho', -⟩ := regAt_row ha' h'
  have hr : row = row' :=
    (show ∀ r ∈ registerMap, ∀ r' ∈ registerMap, r.name = r'.name → r = r' by decide) row hm row' hm'
      (hn.trans hn'.symm)
  exact BitVec.eq_of_toNat_eq (by rw [ho, ho', hr])

/-- `CMD` stands at offset 0 only, among aligned offsets. -/
theorem regAt_cmd {off : Offset} {i n : Nat} (ha : alignedWord off n = true) (h : regAt off = some (.cmd, i)) :
    off = 0 ∧ n = 4 := by
  simp only [alignedWord, Bool.and_eq_true, beq_iff_eq] at ha
  refine ⟨BitVec.eq_of_toNat_eq ?_, ha.1⟩
  rw [regAt_eq] at h
  split at h
  · show off.toNat = 0
    omega
  · exfalso
    repeat' split at h
    all_goals simp at h

/-- The core never stops on a command word, legal or not (R277, R105). -/
theorem runCommand_cases {w : Word} {s t : State} (h : runCommand w s = .next t) :
    (∃ i, decode w = .ok i ∧ exec i s = .next t) ∨ (∃ e, decode w = .error e ∧ t = raise .opcode s) := by
  unfold runCommand at h
  split at h
  · exact .inl ⟨_, ‹_›, h⟩
  · injection h with h; exact .inr ⟨_, ‹_›, h.symm⟩

/-- Everything a completed host write can be: a command, or a word written to a register other than `CMD`. -/
theorem hostWrite_cases {off : Offset} {n : Nat} {v : Word} {s t : State} (h : hostWrite off n v s = .next t) :
    alignedWord off n = true ∧
    ((∃ i, regAt off = some (.cmd, i) ∧ runCommand v s = .next t) ∨
     (∃ name i, name ≠ .cmd ∧ regAt off = some (name, i) ∧ t = writeReg name i v s)) := by
  unfold hostWrite at h
  split at h
  · refine ⟨‹_›, ?_⟩
    split at h
    · exact .inl ⟨_, ‹_›, h⟩
    · rename_i hne heq
      injection h with h
      exact .inr ⟨_, _, hne, heq, h.symm⟩
    · exact nomatch h
  · exact nomatch h

/-- A completed host read appends one word to the read log. -/
theorem hostRead_cases {off : Offset} {n : Nat} {s t : State} (h : hostRead off n s = .next t) :
    alignedWord off n = true ∧ ∃ name i, regAt off = some (name, i) ∧
      t = { s with readLog := s.readLog ++ [readReg name i s] } := by
  unfold hostRead at h
  split at h
  · refine ⟨‹_›, ?_⟩
    split at h
    · injection h with h; exact ⟨_, _, ‹_›, h.symm⟩
    · exact nomatch h
  · exact nomatch h

/-- Everything a step can be: idle, a reset, a write, or a read. -/
theorem step_cases {s t : State} (h : step s = .next t) :
    (s.script = [] ∧ t = s) ∨
    ∃ op rest, s.script = op :: rest ∧
      ((op = .reset ∧ t = hardReset { s with script := rest }) ∨
       (∃ off n v, op = .write off n v ∧ hostWrite off n v { s with script := rest } = .next t) ∨
       (∃ off n, op = .read off n ∧ hostRead off n { s with script := rest } = .next t)) := by
  unfold step hostStep at h
  split at h
  · injection h with h; exact .inl ⟨‹_›, h.symm⟩
  · rename_i op rest heq
    refine .inr ⟨op, rest, heq, ?_⟩
    cases op with
    | reset => injection h with h; exact .inl ⟨rfl, h.symm⟩
    | write off n v => exact .inr (.inl ⟨off, n, v, rfl, h⟩)
    | read off n => exact .inr (.inr ⟨off, n, rfl, h⟩)

/-! ### Runs -/

/-- Runs add up. -/
theorem run_add {m n : Nat} {s t : State} (h : run m s = .next t) : run (m + n) s = run n t := by
  induction m generalizing s with
  | zero => injection h with h; subst h; rw [Nat.zero_add]
  | succ m ih =>
    rw [Nat.succ_add, run]
    rw [run] at h
    cases hs : step s with
    | next s' => rw [hs] at h; exact ih h
    | fault _ => rw [hs] at h; exact nomatch h
    | refused _ => rw [hs] at h; exact nomatch h

/-- One more step at the front. -/
theorem run_succ_of_step {k : Nat} {s t : State} (h : step s = .next t) : run (k + 1) s = run k t := by
  rw [run, h]

/-- The host's run, one step at the front. -/
theorem hostRun_succ (M : Host.Core) (k : Nat) (s : M.State) :
    M.run (k + 1) s =
      match M.step s with
      | .next t => M.run k t
      | .fault f => .fault f
      | .refused r => .refused r := rfl

/-- The run of the host's own interface is this run. -/
theorem core_run_eq (k : Nat) (s : State) : Sys2Proof.core.run k s = run k s := by
  induction k generalizing s with
  | zero => rfl
  | succ k ih =>
    refine (hostRun_succ Sys2Proof.core k s).trans ?_
    rw [run]
    cases hs : step s with
    | next t => rw [show Sys2Proof.core.step s = .next t from hs]; exact ih t
    | fault f => rw [show Sys2Proof.core.step s = .fault f from hs]; rfl
    | refused r => rw [show Sys2Proof.core.step s = .refused r from hs]; rfl

end Sys2Proof.Machine
end

