-- ==== Sys2Proof/Tests/Slice0.lean ====
section
/-! SUPPORT. The model's own tests: expected values come from spec/95_test_vectors.md and the rules named; then, for each
statement with hypotheses, a concrete input that meets them. -/

namespace Sys2Proof.Tests

open Sys2Proof Sys2Proof.Machine Sys2Proof.Claims

/-! ### WellFormed -/

theorem test_wf_refuses_initStd : wellFormed (.initStd 256) = false := by decide
theorem test_wf_refuses_initCustom_klen : wellFormed (.initCustom 256 1) = false := by decide
theorem test_wf_refuses_initCustom_clen : wellFormed (.initCustom 16 256) = false := by decide
theorem test_wf_refuses_xor_lenIn : wellFormed (.xor 256 0) = false := by decide
theorem test_wf_refuses_xor_lenOut : wellFormed (.xor 0 256) = false := by decide

/-! ### Decoding: words written out from the field layout of R100 and the rows of R103: RSV, B, A, OP -/

theorem test_decode_initStd : decode 0b00000000000000000010000000000001 = .ok (.initStd 32) := by decide
theorem test_decode_initCustom : decode 0b00000000000100000010000000000010 = .ok (.initCustom 32 16) := by decide
theorem test_decode_next : decode 0b00000000000000000000000000000011 = .ok .next := by decide
theorem test_decode_xor : decode 0b00000000001111000100011000000100 = .ok (.xor 70 60) := by decide
theorem test_decode_block : decode 0b00000000000000000000000000000101 = .ok (.block false) := by decide
theorem test_decode_block_raw : decode 0b00000000000000000000000100000101 = .ok (.block true) := by decide

/-- R105: a reserved bit, an unknown operation, and fields that must be 0. -/
theorem test_decode_rejects :
    decode 0b10000000000000000000000000000011 = .error .reservedNotZero ∧
    decode 0b00000000000000000000000000000110 = .error .unknownOperation ∧
    decode 0b00000000000000000000001000000101 = .error .fieldNotZero ∧
    decode 0b00000000000000010001000000000001 = .error .fieldNotZero := by decide

/-- The host's numbering of table words (log 15). -/
theorem test_decodeTableWord : decodeTableWord 32 0x00060504 = some (.xor 5 6) ∧ decodeTableWord 32 0x00000105 = some (.block true) ∧
    decodeTableWord 32 0 = none := by decide

/-! ### Primitives and the transform -/

/-- The first block of V10. -/
def blk128_0 : Bytes 64 :=
  #v[0x89, 0x67, 0x09, 0x52, 0x60, 0x83, 0x64, 0xfd, 0x00, 0xb2, 0xf9, 0x09, 0x36, 0xf0, 0x31, 0xc8,
     0xe7, 0x56, 0xe1, 0x5d, 0xba, 0x04, 0xb8, 0x49, 0x3d, 0x00, 0x42, 0x92, 0x59, 0xb2, 0x0f, 0x46,
     0xcc, 0x04, 0xf1, 0x11, 0x24, 0x6b, 0x6c, 0x2c, 0xe0, 0x66, 0xbe, 0x3b, 0xfb, 0x32, 0xd9, 0xaa,
     0x0f, 0xdd, 0xfb, 0xc1, 0x21, 0x23, 0xd4, 0xb9, 0xe4, 0x4f, 0x34, 0xdc, 0xa0, 0x5a, 0x10, 0x3f]

/-- V6, a row the obligations do not list. -/
theorem test_quarter_round_v6 :
    quarter 0x80000000 0x80000000 0x80000000 0x80000000 = ⟨0x08000000, 0x40400444, 0x80808008, 0x00800008⟩ := by decide

/-- V8: the initial state of V10 after one column round. -/
theorem test_column_round_v8 :
    (colRound (assemble (zeroBytes 16) (zeroBytes 16) (zeroBytes 16) Config.const128))[5] = 0xede1eb11 := by decide +kernel

/-! ### Commands -/

/-- The state after `RESET` and `LDKEY 00 01 .. 1f` (V13). -/
def keyed : State := { State.reset with keyin := Vector.ofFn fun i => BitVec.ofNat 8 i }

/-- V12: the nonce of sixteen 0xFF bytes. -/
def keyedFF : State := { keyed with noncein := Vector.replicate 16 0xFF }

/-- A session as V12 leaves it after `INIT_CUSTOM 16, 16`. -/
def session : State :=
  { keyedFF with key0 := slice keyed.keyin 0 16, key1 := slice keyed.keyin 0 16, nonce := keyedFF.noncein, clen := 16, valid := true }

/-- A session in standard mode on a zero key (P1). -/
def zeroSession : State := { State.reset with clen := 8, valid := true }

/-- A field of the next state, or a default where there is none. -/
def fromNext {α : Type} (f : State → α) (default : α) : Host.Outcome State Fault Refusal → α
  | .next t => f t
  | .fault _ => default
  | .refused _ => default

/-- V12: `STATUS` after `INIT_CUSTOM 16, 16`, and the session it opens. -/
theorem test_initCustom_v12 : fromNext statusWord 0 (exec (.initCustom 16 16) keyedFF) = 0x00001010 ∧
    fromNext (·.nonce) (zeroBytes 16) (exec (.initCustom 16 16) keyedFF) = Vector.replicate 16 0xFF := by decide +kernel

/-- P3: the key length is checked before the counter length. -/
theorem test_initCustom_priority : fromNext statusWord 0 (exec (.initCustom 15 0) State.reset) = 0x00000022 := by decide +kernel

/-- P3: `INIT_STD 15` ends a session opened by `INIT_CUSTOM 32, 4`; the dead session still shows. -/
theorem test_initStd_refused : fromNext statusWord 0
    (exec (.initStd 15) { session with k256 := true, clen := 4, fault := true }) = 0x00000462 := by decide +kernel

/-- R206: the caller's nonce stands in bytes 8 to 15. -/
theorem test_initStd_nonce : fromNext (fun t => (byteAt t.nonce 0, byteAt t.nonce 7, byteAt t.nonce 8)) (1, 1, 1)
    (exec (.initStd 32) keyedFF) = (0, 0, 0xFF) := by decide +kernel

/-- V12: the counter of sixteen bytes wraps to zero, and the block is made from the old nonce. -/
theorem test_next_v12 : fromNext (fun t => (t.nonce, slice t.out 0 4)) (session.nonce, zeroBytes 4) (exec .next session) =
    (zeroBytes 16, #v[0x54, 0xc2, 0xd8, 0x0b]) := by decide +kernel

/-- P3: NEXT after reset. -/
theorem test_next_nosession : fromNext statusWord 0 (exec .next State.reset) = 0x00000025 := by decide +kernel

/-- P7: `XOR 10` on zero data shows keystream bytes 0 to 9 and leaves 54 of them. -/
theorem test_xor_p7 : fromNext (fun t => (slice t.dout 0 12, statusWord t)) (zeroBytes 12, 0) (exec (.xor 10 10) zeroSession) =
    (#v[0x89, 0x67, 0x09, 0x52, 0x60, 0x83, 0x64, 0xfd, 0x00, 0xb2, 0x00, 0x00], 0x00360810) := by decide +kernel

/-- R253, R251: with one byte left, the second byte comes from a new block (`blk128_0`), the counter moves once. -/
theorem test_xor_across_blocks : fromNext (fun t => (slice t.dout 0 3, byteAt t.nonce 0, t.rem)) (zeroBytes 3, 0, 0)
    (exec (.xor 2 2) { zeroSession with rem := 1, buf := Vector.replicate 64 0xAB }) = (#v[0xAB, 0x89, 0x00], 1, 63) := by
  decide +kernel

/-- P5: BLOCK after `LDCONST` of the constant of 16-byte keys gives `blk128_0`. -/
theorem test_block_p5 : fromNext (fun t => (t.out, statusWord t)) (zeroBytes 64, 1)
    (exec (.block false) { State.reset with constin := Config.const128 }) = (blk128_0, 0) := by decide +kernel

/-- P5: BLOCK RAW. -/
theorem test_block_raw_p5 : fromNext (fun t => slice t.out 0 4) (zeroBytes 4)
    (exec (.block true) { State.reset with constin := Config.const128 }) = #v[0x24, 0xef, 0x98, 0xf0] := by decide +kernel

/-- The step runs the word placed for it. -/
theorem test_step_runs_fetched_word :
    fromNext statusWord 0 (step (State.reset.withFetchWord 32 0x00002001)) = 0x00000850 := by decide +kernel

/-! ### Witnesses: for each statement with hypotheses, inputs that meet them, at the ends of their ranges -/

theorem witness_DecodeInvertsEncode : wellFormed (.initStd 255) = true ∧ wellFormed (.initCustom 255 0) = true ∧ wellFormed .next = true ∧
    wellFormed (.xor 0 255) = true ∧ wellFormed (.block true) = true := by decide

theorem witness_EncodeInvertsDecode : decode 0x00FFFF04 = .ok (.xor 255 255) := by decide

theorem witness_DecodeReturnsTheMatchingRow : (decode 0x00FFFF02 = .ok (.initCustom 255 255)) ∧
    decode 0xFFFFFFFF = .error .reservedNotZero := by decide

theorem witness_IllegalWordsAreCounted : decode 0x00000000 = .error .unknownOperation := by decide

theorem witness_WorkedEncodings : session.valid = true := by decide

theorem witness_RotateLeftPrimitive : (0 < 1 ∧ 1 < 32) ∧ (0 < 31 ∧ 31 < 32) := by decide

theorem witness_LittleEndianLoadAndStore : 0 < 4 ∧ 3 < 4 := by decide

theorem witness_WordViewIsByteView : 4 * 0 + 4 ≤ 4 ∧ 4 * 15 + 4 ≤ 64 ∧ (11 < 4 * 3 ∨ 4 * 3 + 4 ≤ 11) ∧ (16 < 4 * 3 ∨ 4 * 3 + 4 ≤ 16) ∧
    2 ≠ 3 := by decide

theorem witness_QuarterRoundEightStatements : [(0 : Fin 16), 4, 8, 12].Nodup ∧ (15 : Fin 16) ∉ [(0 : Fin 16), 4, 8, 12] := by decide

theorem witness_QuarterRoundIsABijection : (laneIndices (diagLane 3)).Nodup := by decide

theorem witness_RoundsApplyTheQuarterRoundToTheirLanes :
    quadAt ⟨2, 7, 8, 13⟩ #v[0, 0, 0x516461B1, 0, 0, 0, 0, 0x2A5F714C, 0x53372767, 0, 0, 0, 0, 0x3D631689, 0, 0] =
      ⟨0x516461B1, 0x2A5F714C, 0x53372767, 0x3D631689⟩ ∧ (14 : Fin 16) ∉ [(2 : Fin 16), 7, 8, 13] := by decide

theorem witness_LanesOfARoundAreIndependent : List.Perm [(3 : Fin 4), 1, 2, 0] [0, 1, 2, 3] ∧ (3 < 4 ∧ 0 < 4) := by decide

theorem witness_UnrollFactorIsUnobservable : 1 ∣ 2 * Config.doubleRounds ∧ 20 ∣ 2 * Config.doubleRounds := by decide

theorem witness_AssemblyLaysOutTheMatrix : 3 < 4 ∧ 15 < 16 := by decide

theorem witness_SerializationIsLittleEndian : (15 < 16 ∧ 3 < 4) ∧
    wordOf #v[0x52096789, 0, 0, 0, 0, 0, 0, 0, 0, 0, 0, 0, 0, 0, 0, 0] 0 = 0x52096789 := by decide

theorem witness_BlockFunctionFormula : 15 < 16 := by decide

theorem witness_RawBlockDeterminesItsInputs : 15 < 16 ∧ ∃ key0 key1 nonce constant key0' key1' nonce' constant' : Bytes 16,
    blockFnRaw key0 key1 nonce constant = blockFnRaw key0' key1' nonce' constant' :=
  ⟨by decide, zeroBytes 16, zeroBytes 16, zeroBytes 16, Config.const256, zeroBytes 16, zeroBytes 16, zeroBytes 16, Config.const256, rfl⟩

theorem witness_BlockCommandRunsTheTransform :
    [(0x00000205 : Word), 0x00008005, 0x00010005, 0x01000005].map
      (fun w => fieldOp w == 0x05 && ((fieldA w).toNat / 2 != 0 || fieldB w != 0 || fieldRsv w != 0)) =
    List.replicate 4 true := by decide

theorem witness_NextEqualsBlockOnTheSessionOperands : session.valid = true := by decide

theorem witness_InitStdNextState : (16 = 16 ∨ 16 = 32) ∧ (32 = 16 ∨ 32 = 32) ∧ ¬ (15 = 16 ∨ 15 = 32) ∧ ¬ (33 = 16 ∨ 33 = 32) ∧
    (∃ t, exec (.initStd 16) State.reset = .next t) ∧ (255 < 256 ∧ fieldOp 0x00010001 = 0x01 ∧ fieldB 0x00010001 ≠ 0) ∧
    (fieldOp 0x80000001 = 0x01 ∧ fieldRsv 0x80000001 ≠ 0) ∧
    ∃ s t, slice s.noncein 0 8 = #v[0x10, 0x11, 0x12, 0x13, 0x14, 0x15, 0x16, 0x17] ∧ exec (.initStd 16) s = .next t :=
  ⟨by decide, by decide, by decide, by decide, ⟨_, rfl⟩, by decide, by decide,
    { State.reset with noncein := #v[0x10, 0x11, 0x12, 0x13, 0x14, 0x15, 0x16, 0x17, 0, 0, 0, 0, 0, 0, 0, 0] }, _, by decide, rfl⟩

theorem witness_InitCustomNextState : ((16 = 16 ∨ 16 = 32) ∧ 1 ≤ 1 ∧ 1 ≤ 16) ∧ ((32 = 16 ∨ 32 = 32) ∧ 1 ≤ 16 ∧ 16 ≤ 16) ∧
    ¬ (0 = 16 ∨ 0 = 32) ∧ (0 = 0 ∨ 16 < 0) ∧ (17 = 0 ∨ 16 < 17) ∧
    (255 < 256 ∧ fieldOp 0x01000002 = 0x02 ∧ fieldRsv 0x01000002 ≠ 0) ∧
    ∃ t, exec (.initCustom 16 16) State.reset = .next t ∧ t.valid = true :=
  ⟨by decide, by decide, by decide, by decide, by decide, by decide, _, rfl, by decide⟩

theorem witness_SessionStateMachine : (∃ t, exec (.initStd 16) State.reset = .next t) ∧ (∃ t, exec (.initStd 15) State.reset = .next t) ∧
    (∃ t, exec (.initCustom 32 1) State.reset = .next t) ∧ (∃ t, exec (.initCustom 32 17) State.reset = .next t) ∧
    (∃ t, exec .next session = .next t) ∧ (∃ t, exec .next State.reset = .next t) ∧ (∃ t, exec (.xor 64 64) session = .next t) ∧
    (∃ t, exec (.xor 65 65) session = .next t) ∧ (∃ t, exec (.xor 0 0) State.reset = .next t) ∧
    (∃ t, exec (.block true) State.reset = .next t) ∧
    (∃ t, decode 0 = .error .unknownOperation ∧ runCommand 0 State.reset = .next t) ∧ (∃ t, hostOp .reset session = .next t) :=
  ⟨⟨_, rfl⟩, ⟨_, rfl⟩, ⟨_, rfl⟩, ⟨_, rfl⟩, ⟨_, rfl⟩, ⟨_, rfl⟩, ⟨_, rfl⟩, ⟨_, rfl⟩, ⟨_, rfl⟩, ⟨_, rfl⟩, ⟨_, by decide, rfl⟩, ⟨_, rfl⟩⟩

theorem witness_ErrorsHaveThisPriority : decode 0x01000F01 = .error .reservedNotZero ∧ ¬ (31 = 16 ∨ 31 = 32) ∧
    ((16 = 16 ∨ 16 = 32) ∧ (17 = 0 ∨ 16 < 17)) ∧ State.reset.valid = false ∧ (session.valid = true ∧ 5 ≠ 6) ∧
    (session.valid = true ∧ 64 < 65) ∧ ∃ t, exec (.block false) State.reset = .next t :=
  ⟨by decide, by decide, by decide, by decide, by decide, by decide, _, rfl⟩

theorem witness_RefusalsArePrecise : ∃ t, exec (.initStd 15) State.reset = .next t ∧ t.err ≠ 0 := ⟨_, rfl, by decide⟩

theorem witness_FaultBitIsSticky :
    (∃ s t, step s = .next t ∧ s.fault = true ∧ s.script = [.reset]) ∧
    (∃ s t, step s = .next t ∧ s.fault = true ∧ s.script = [commandWrite 0x00001001]) ∧
    ∃ t, exec .next session = .next t :=
  ⟨⟨{ State.reset with fault := true, script := [.reset] }, _, rfl, rfl, rfl⟩,
    ⟨{ State.reset with fault := true, script := [commandWrite 0x00001001] }, _, rfl, rfl, rfl⟩, _, rfl⟩

/-- A nonce buffer whose first byte is 0xFF and whose second is not. -/
def carryNonce : Bytes 16 := #v[0xFF, 0xFE, 0, 0, 0, 0, 0, 0, 0, 0, 0, 0, 0, 0, 0, 0]

theorem witness_CounterIncrementByBytes :
    (1 < 2 ∧ 2 ≤ 16 ∧ (∀ i < 1, byteAt carryNonce i = 0xFF) ∧ byteAt carryNonce 1 ≠ 0xFF) ∧
    (0 < 1 ∧ 1 ≤ 16 ∧ (∀ i < 0, byteAt (zeroBytes 16) i = 0xFF) ∧ byteAt (zeroBytes 16) 0 ≠ 0xFF) ∧
    (16 ≤ 16 ∧ ∀ i < 16, byteAt session.nonce i = 0xFF) ∧
    (1 ≤ 1) ∧
    (session.valid = true ∧ ∀ i < session.clen.toNat, byteAt session.nonce i = 0xFF) := by decide

theorem witness_CounterIncrementIsModularAddition : (1 ≤ 1 ∧ 1 ≤ 16) ∧ (1 ≤ 16 ∧ 16 ≤ 16) := by decide

theorem witness_CounterPeriod : (1 ≤ 1 ∧ 1 ≤ 16) ∧ (1 ≤ 16 ∧ 16 ≤ 16) ∧ (1 ≤ session.clen.toNat ∧ session.clen.toNat ≤ 16) := by
  decide

theorem witness_NextCommandProducesOneBlock : session.valid = true ∧ State.reset.valid = false ∧
    [(0x00000103 : Word), 0x00010003, 0x01000003].map
      (fun w => fieldOp w == 0x03 && (fieldA w != 0 || fieldB w != 0 || fieldRsv w != 0)) = List.replicate 3 true := by decide

theorem witness_NthBlockFollowsNIncrements : session.valid = true := by decide

theorem witness_XorCommandClosedForm : (session.valid = true ∧ session.rem.toNat ≤ 64 ∧ 64 ≤ 64) ∧
    (({ session with rem := 64 } : State).valid = true ∧ ({ session with rem := 64 } : State).rem.toNat ≤ 64 ∧ 0 ≤ 64) ∧
    State.reset.valid = false ∧ (session.valid = true ∧ 64 ≠ 65) ∧ (session.valid = true ∧ 64 < 65) ∧ 255 < 256 ∧
    (fieldOp 0x01000004 = 0x04 ∧ fieldRsv 0x01000004 ≠ 0) := by decide

theorem witness_ZeroLengthXorIsANoOp : session.valid = true ∧ State.reset.valid = false := by decide

theorem witness_KeystreamAccounting : zeroSession.rem = 0 ∧ 0 < (afterStream 1 zeroSession).rem.toNat := by decide

theorem witness_StreamXorsTheKeystream : zeroSession.rem = 0 ∧ [(1 : Byte), 2][0]? = some 1 ∧ [(1 : Byte), 2][1]? = some 2 := by
  decide

/-- `XOR` commands of one byte, of none, and of sixty-four. -/
theorem witness_StreamingEquivalence : ∃ (u : State) (out : List Byte),
    session.valid = true ∧ session.rem.toNat ≤ 64 ∧ session.rem = 0 ∧
    ([[0], [], List.replicate 64 0] : List (List Byte)).flatten[64]? = some 0 ∧
    ChunkRun session [[0], [], List.replicate 64 0] out u :=
  ⟨_, _, by decide, by decide, by decide, by decide,
    .cons _ _ _ (zeroBytes 64) [0] _ _ (by decide) (by decide) rfl
      (.cons _ _ _ (zeroBytes 64) [] _ _ (by decide) (by decide) rfl
        (.cons _ _ _ (zeroBytes 64) (List.replicate 64 0) _ _ (by decide) (by decide) rfl (.nil _)))⟩

/-- One byte sent, and its ciphertext sent from the same session. -/
theorem witness_DecryptionIsEncryption : ∃ (s s' u u' : State) (chunks chunks' : List (List Byte)) (out out' : List Byte),
    s.valid = true ∧ s.rem.toNat ≤ 64 ∧ sameSession s s' ∧ ChunkRun s chunks out u ∧ ChunkRun s' chunks' out' u' ∧
    chunks'.flatten = out := by
  obtain ⟨t, ht⟩ : ∃ t, exec (.xor [(7 : Byte)].length [(7 : Byte)].length) { session with din := Vector.replicate 64 7 } = .next t :=
    ⟨_, rfl⟩
  have run : ChunkRun session [[7]] [byteAt t.dout 0] t :=
    .cons _ _ _ (Vector.replicate 64 7) [7] _ _ (by decide) (by decide) ht (.nil _)
  have back : ∃ out' u', ChunkRun session [[byteAt t.dout 0]] out' u' :=
    ⟨_, _, .cons _ _ _ t.dout [byteAt t.dout 0] _ _ (by simp)
      (fun i hi => by obtain rfl : i = 0 := by simpa using hi
                      rfl) rfl (.nil _)⟩
  obtain ⟨out', u', back⟩ := back
  exact ⟨session, session, t, u', _, _, _, out', by decide, by decide, ⟨rfl, rfl, rfl, rfl, rfl, rfl, rfl, rfl⟩, run, back, rfl⟩

theorem witness_NextRemovesOneBlockFromTheStream : session.valid = true ∧ session.rem.toNat ≤ 64 ∧ 64 ≤ 64 := by decide

theorem session_inv : session.Inv := by constructor <;> decide

theorem witness_StepKeepsTheInvariant :
    (∃ t, State.reset.Inv ∧ step State.reset = .next t) ∧
    ∃ s t, State.Inv s ∧ s.script = [opCommand (.xor 64 64)] ∧ step s = .next t :=
  ⟨⟨_, by constructor <;> decide, rfl⟩, { session with script := [opCommand (.xor 64 64)] }, _, by constructor <;> decide, rfl, rfl⟩

theorem witness_DeadSessionIsReadByNoCommand : State.reset.valid = false ∧ (∃ t, exec (.initStd 16) State.reset = .next t) ∧
    ∃ t, exec .next State.reset = .next t := ⟨by decide, ⟨_, rfl⟩, _, rfl⟩

theorem witness_CommandsWriteOnlyTheirRegisters : (∃ t, exec .next session = .next t) ∧ (∃ t, exec (.xor 1 1) session = .next t) ∧
    (∃ t, exec (.initStd 32) session = .next t) ∧ ∃ t, exec (.block true) session = .next t :=
  ⟨⟨_, rfl⟩, ⟨_, rfl⟩, ⟨_, rfl⟩, _, rfl⟩

theorem witness_OnlyInitAndResetChangeTheSessionKey :
    (∃ t, step { session with script := [opCommand .next] } = .next t) ∧
    ∃ t, step { session with script := [opCommand (.initStd 16)] } = .next t := ⟨⟨_, rfl⟩, _, rfl⟩

theorem witness_CommandWriteRunsTheCommand :
    ({ session with script := [.write 0x000 4 0x00000003] } : State).script = [.write 0x000 4 0x00000003] ∧
    decode 0x00000003 = .ok .next ∧ decode 0x00000103 = .error .fieldNotZero ∧ session.script = [] := by decide

/-- Each clause at both ends of its ranges. -/
theorem witness_AccessesOutsideTheInterfaceStop :
    [((0x000 : Offset), 1), (0x000, 8), (0x001, 4), (0xFFF, 4)].all (fun p => !alignedWord p.1 p.2) = true ∧
    [(0x008 : Offset), 0x00C, 0x060, 0x07C, 0x140, 0xFFC].all (fun o => alignedWord o 4 && (regAt o).isNone) = true ∧
    [(0x000 : Offset), 0x004, 0x010, 0x05C, 0x080, 0x13C].all (fun o => alignedWord o 4 && (regAt o).isSome) = true := by decide

theorem witness_ArrayRegistersOfTheWindow : 7 < 8 ∧ 3 < 4 ∧ 15 < 16 := by decide

theorem witness_WriteOnlyAndReadOnlyRegisters : 7 < 8 ∧ 3 < 4 ∧ 15 < 16 := by decide

theorem witness_OnlyCommandWritesHaveSideEffects :
    (∃ t, hostRead 0x13C 4 session = .next t) ∧
    (∃ t, (0x010 : Offset) ≠ 0x000 ∧ hostWrite 0x010 4 0xFFFFFFFF session = .next t) ∧
    (∃ t, (0x004 : Offset) ≠ 0x000 ∧ hostWrite 0x004 4 0xFFFFFFFF session = .next t) ∧
    ¬ (0x010 + 4 < (0x010 : Offset).toNat + 4 ∧ (0x010 : Offset).toNat ≤ 0x010 + 4) ∧
    ((0x014 : Offset).toNat % 4 = 0 ∧ (0x014 : Offset) ≠ 0x010) :=
  ⟨⟨_, rfl⟩, ⟨_, by decide, rfl⟩, ⟨_, by decide, rfl⟩, by decide, by decide⟩

theorem witness_HostReadsRevealNoSecret : (∃ t, hostRead 0x004 4 session = .next t) ∧
    (∃ f, hostRead 0x008 4 session = .fault f) ∧ ∃ r, hostRead 0x004 2 session = .refused r := ⟨⟨_, rfl⟩, ⟨_, rfl⟩, _, rfl⟩

theorem witness_StagingWritesDoNotChangeTheSession : (∃ t, exec .next session = .next t) ∧ (∃ t, exec (.xor 64 64) session = .next t) ∧
    ∃ t, (0x030 : Offset) ≠ 0x000 ∧ hostWrite 0x030 4 1 session = .next t := ⟨⟨_, rfl⟩, ⟨_, rfl⟩, _, by decide, rfl⟩

/-- A script with every kind of operation, a refused command and an illegal word among them. -/
theorem witness_InterfaceScriptsNeverStop : scriptInInterface { State.reset with
    script := [.reset, opCommand .next, opWrite 0x010 1, opRead 0x13C, opWrite 0x000 0, opCommand (.initStd 16), opXor 64] } = true := by
  decide

theorem witness_LoadPseudoOperations : ((List.replicate 16 (1 : Byte)).length = 16 ∨ (List.replicate 16 (1 : Byte)).length = 32) ∧
    ((List.replicate 8 (1 : Byte)).length = 8 ∨ (List.replicate 8 (1 : Byte)).length = 16) ∧ ([] : List Byte).length ≤ 64 ∧
    (List.replicate 64 (1 : Byte)).length ≤ 64 := by decide

theorem witness_SequencerComputesTheCommand : State.reset.Inv ∧ session.Inv := ⟨by constructor <;> decide, session_inv⟩

theorem witness_BlockTakesEightyQuarterRounds : (2 ≤ 2 ∧ 2 < 82) ∧ (2 ≤ 81 ∧ 81 < 82) := by decide

end Sys2Proof.Tests
end

section
/-! PROOFS. Rules shared by every proof about a command, a host access or a step. -/

namespace Sys2Proof.Proofs

open Sys2Proof Sys2Proof.Machine Sys2Proof.Claims

/-! ### Commands: the first failing check, or the command's writes -/

/-- What a command writes when every check passes, before `err` is cleared (R189, R206, R207, R236, R253). -/
def commandEffect (i : Instr) (s : State) : State :=
  match i with
  | .initStd klen => openSession (standardNonce s) 8 (keySetup klen s)
  | .initCustom klen clen => openSession s.noncein clen (keySetup klen s)
  | .next => { afterProduce s with out := producedBlock s }
  | .xor lenIn _ => xorLoop lenIn 0 s
  | .block raw => releaseWork { s with out := stagedBlock raw s }

/-- Every command either raises the error of its first failing check or completes with its writes (R278, R279). -/
theorem exec_eq_raise_or_complete (i : Instr) (s : State) :
    exec i s = .next ((commandError i s).elim (complete (commandEffect i s)) fun e => raise e s) := by
  cases i with
  | initStd klen =>
    simp only [exec, execInitStd, commandError]
    split <;> rfl
  | initCustom klen clen =>
    simp only [exec, execInitCustom, commandError]
    by_cases hk : keyLengthOk klen <;> by_cases hc : counterLengthOk clen <;> simp [hk, hc, commandEffect]
  | next =>
    simp only [exec, execNext, commandError]
    split <;> rfl
  | xor lenIn lenOut =>
    simp only [exec, execXor, commandError]
    repeat' split
    all_goals rfl
  | block raw => rfl

theorem exec_of_commandError {i : Instr} {s : State} {e : ErrCode} (h : commandError i s = some e) :
    exec i s = .next (raise e s) := by
  rw [exec_eq_raise_or_complete, h]; rfl

theorem exec_of_checksPass {i : Instr} {s : State} (h : commandError i s = none) :
    exec i s = .next (complete (commandEffect i s)) := by
  rw [exec_eq_raise_or_complete, h]; rfl

/-! ### Host accesses and steps -/

theorem hostRead_of_regAt {off : Offset} {name : RegName} {i : Nat} (s : State) (ha : alignedWord off 4 = true)
    (hr : regAt off = some (name, i)) :
    hostRead off 4 s = .next { s with readLog := s.readLog ++ [readReg name i s] } := by
  rw [hostRead, if_pos ha, hr]

theorem hostWrite_of_regAt {off : Offset} {name : RegName} {i : Nat} (v : Word) (s : State)
    (ha : alignedWord off 4 = true) (hr : regAt off = some (name, i)) (hn : name ≠ .cmd) :
    hostWrite off 4 v s = .next (writeReg name i v s) := by
  rw [hostWrite, if_pos ha, hr]
  cases name with
  | cmd => exact absurd rfl hn
  | _ => rfl

/-- The write of `CMD` executes the word (R47). -/
theorem hostWrite_cmd (w : Word) (s : State) : hostWrite 0x000 4 w s = runCommand w s := by
  rw [hostWrite, if_pos (by decide), show regAt 0x000 = some (.cmd, 0) by decide]

theorem runCommand_of_decode_ok {w : Word} {i : Instr} (s : State) (h : decode w = .ok i) :
    runCommand w s = exec i s := by
  rw [runCommand, h]

theorem runCommand_of_decode_error {w : Word} {e : IllegalWord} (s : State) (h : decode w = .error e) :
    runCommand w s = .next (raise .opcode s) := by
  rw [runCommand, h]

/-- A step performs the host's next pending operation (R79). -/
theorem step_of_script {s : State} {op : HostOp} {rest : List HostOp} (h : s.script = op :: rest) :
    step s = hostOp op { s with script := rest } := by
  rw [step, hostStep, h]

/-- A step whose pending operation writes `CMD` executes the written word (R47). -/
theorem step_of_commandWrite {s : State} {w : Word} {rest : List HostOp} (h : s.script = .write 0x000 4 w :: rest) :
    step s = runCommand w { s with script := rest } := by
  rw [step_of_script h, hostOp, hostWrite_cmd]

end Sys2Proof.Proofs
end

section
/-! PROOFS. The `CMD` register and the sticky `fault` bit (R47, R38). -/

namespace Sys2Proof.Proofs

open Sys2Proof Sys2Proof.Machine Sys2Proof.Claims

/-- Settles O48: each clause is the rule of a `CMD` write, of a decoded word or of a mapped read. -/
theorem commandWriteRunsTheCommand : Obligations.CommandWriteRunsTheCommand := by
  refine ⟨fun s w i rest hs hd => ?_, fun s w e rest hs hd => ?_, fun s => ?_, fun w => ⟨rfl, rfl, rfl, rfl⟩⟩
  · rw [step_of_commandWrite hs, runCommand_of_decode_ok _ hd]
  · rw [step_of_commandWrite hs, runCommand_of_decode_error _ hd]
  · exact hostRead_of_regAt s (by decide) (show regAt 0x000 = some (.cmd, 0) by decide)

/-! ### The sticky fault bit -/

/-- The state with another fault bit (R38). -/
def withFault (b : Bool) (s : State) : State := { s with fault := b }

theorem commandError_withFault (i : Instr) (b : Bool) (s : State) : commandError i (withFault b s) = commandError i s := by
  cases i <;> rfl

theorem refill_withFault (b : Bool) (s : State) : refill (withFault b s) = withFault b (refill s) := by
  by_cases h : s.rem = 0
  · rw [refill_of_rem_eq_zero h, refill_of_rem_eq_zero (s := withFault b s) h]; rfl
  · rw [refill_of_rem_ne_zero h, refill_of_rem_ne_zero (s := withFault b s) h]

theorem xorByte_withFault (n : Nat) (b : Bool) (s : State) : xorByte n (withFault b s) = withFault b (xorByte n s) := by
  simp only [xorByte, afterTake, takenByte, refill_withFault]
  rfl

theorem xorLoop_withFault (n k : Nat) (b : Bool) (s : State) :
    xorLoop n k (withFault b s) = withFault b (xorLoop n k s) := by
  induction n generalizing k s with
  | zero => rfl
  | succ n ih => rw [xorLoop, xorLoop, xorByte_withFault, ih]

/-- No command's writes depend on `fault`. -/
theorem commandEffect_withFault (i : Instr) (b : Bool) (s : State) :
    commandEffect i (withFault b s) = withFault b (commandEffect i s) := by
  cases i with
  | xor lenIn lenOut => exact xorLoop_withFault lenIn 0 b s
  | _ => rfl

/-- A command that completes leaves `fault` alone. -/
theorem commandEffect_fault (i : Instr) (s : State) : (commandEffect i s).fault = s.fault := by
  cases i with
  | xor lenIn lenOut => exact xorLoop_fault lenIn 0 s
  | _ => rfl

/-- Replacing `fault` before a command changes at most `fault` after it. -/
theorem exec_withFault {i : Instr} {s t : State} (b : Bool) (h : exec i s = .next t) :
    ∃ b', exec i (withFault b s) = .next (withFault b' t) := by
  cases he : commandError i s with
  | some e =>
    rw [exec_of_commandError he] at h
    injection h with h
    refine ⟨true, ?_⟩
    rw [exec_of_commandError ((commandError_withFault i b s).trans he), ← h]
    rfl
  | none =>
    rw [exec_of_checksPass he] at h
    injection h with h
    refine ⟨b, ?_⟩
    rw [exec_of_checksPass ((commandError_withFault i b s).trans he), commandEffect_withFault, ← h]
    rfl

theorem exec_keeps_fault {i : Instr} {s t : State} (h : exec i s = .next t) (hf : s.fault = true) : t.fault = true := by
  cases he : commandError i s with
  | some e =>
    rw [exec_of_commandError he] at h
    injection h with h
    rw [← h, raise_fault]
  | none =>
    rw [exec_of_checksPass he] at h
    injection h with h
    rw [← h, complete_fault, commandEffect_fault, hf]

theorem writeReg_fault (name : RegName) (i : Nat) (v : Word) (s : State) : (writeReg name i v s).fault = s.fault := by
  cases name <;> rfl

theorem hostWrite_keeps_fault {off : Offset} {n : Nat} {v : Word} {s t : State} (h : hostWrite off n v s = .next t)
    (hf : s.fault = true) : t.fault = true := by
  obtain ⟨-, ⟨_, -, hrun⟩ | ⟨name, i, -, -, rfl⟩⟩ := hostWrite_cases h
  · obtain ⟨i, -, hexec⟩ | ⟨e, -, rfl⟩ := runCommand_cases hrun
    · exact exec_keeps_fault hexec hf
    · exact raise_fault _ _
  · rw [writeReg_fault, hf]

/-- A step other than a reset keeps a set fault bit. -/
theorem step_keeps_fault {s t : State} (h : step s = .next t) (hf : s.fault = true) :
    t.fault = true ∨ ∃ rest, s.script = .reset :: rest := by
  obtain ⟨-, rfl⟩ | ⟨op, rest, hs, ⟨rfl, -⟩ | ⟨off, n, v, -, hw⟩ | ⟨off, n, -, hr⟩⟩ := step_cases h
  · exact .inl hf
  · exact .inr ⟨rest, hs⟩
  · exact .inl (hostWrite_keeps_fault hw hf)
  · obtain ⟨-, name, i, -, rfl⟩ := hostRead_cases hr
    exact .inl hf

/-- Settles O29: `raise` sets the bit, the cases of a step keep it, and `exec` commutes with replacing it. -/
theorem faultBitIsSticky : Obligations.FaultBitIsSticky :=
  ⟨raise_fault, fun _ _ => step_keeps_fault, fun _ _ _ b => exec_withFault b⟩

end Sys2Proof.Proofs
end

section
/-! PROOFS. The `STATUS` register: its value as a sum, its fields, and its accesses (R48). -/

namespace Sys2Proof.Proofs

open Sys2Proof Sys2Proof.Machine Sys2Proof.Claims

/-- Concatenation in arithmetic form: the low part is below the weight of the high part. -/
theorem toNat_append_eq_add {m n : Nat} (x : BitVec m) (y : BitVec n) :
    (x ++ y).toNat = x.toNat * 2 ^ n + y.toNat := by
  rw [BitVec.toNat_append, ← Nat.shiftLeft_add_eq_or_of_lt y.isLt, Nat.shiftLeft_eq]

/-- A field of a word is a digit of its value. -/
theorem extractLsb'_eq_of_toNat {n lo len : Nat} {w : BitVec n} {x : BitVec len}
    (h : w.toNat / 2 ^ lo % 2 ^ len = x.toNat) : w.extractLsb' lo len = x := by
  apply BitVec.eq_of_toNat_eq
  rw [BitVec.extractLsb'_toNat, Nat.shiftRight_eq_div_pow, h]

/-- A bit of a word is a binary digit of its value. -/
theorem getLsbD_eq_of_toNat {n i : Nat} {w : BitVec n} {b : Bool} (h : w.toNat / 2 ^ i % 2 = b.toNat) :
    w.getLsbD i = b := by
  rw [BitVec.getLsbD, Nat.testBit_eq_decide_div_mod_eq, h]
  cases b <;> rfl

/-- `STATUS` as a sum of its fields (R48). -/
theorem statusWord_toNat (s : State) : (statusWord s).toNat =
    s.err.toNat + 16 * s.valid.toNat + 32 * s.fault.toNat + 64 * s.k256.toNat + 256 * s.clen.toNat +
      65536 * s.rem.toNat := by
  simp only [statusWord, toNat_append_eq_add, BitVec.toNat_ofBool, BitVec.toNat_ofNat]
  omega

/-- Each field of `STATUS` stands at its bits, and every other bit is 0: in the sum every term stays below the weight of
the next (R48). -/
theorem statusWord_fields (s : State) :
    (statusWord s).extractLsb' 0 4 = s.err ∧ (statusWord s).getLsbD 4 = s.valid ∧
    (statusWord s).getLsbD 5 = s.fault ∧ (statusWord s).getLsbD 6 = s.k256 ∧ (statusWord s).getLsbD 7 = false ∧
    (statusWord s).extractLsb' 8 5 = s.clen ∧ (statusWord s).extractLsb' 13 3 = 0 ∧
    (statusWord s).extractLsb' 16 7 = s.rem ∧ (statusWord s).extractLsb' 23 9 = 0 := by
  have hsum := statusWord_toNat s
  have herr := s.err.isLt
  have hvalid := s.valid.toNat_lt
  have hfault := s.fault.toNat_lt
  have hk256 := s.k256.toNat_lt
  have hclen := s.clen.isLt
  have hrem := s.rem.isLt
  have hbit7 := Bool.toNat_false
  have hgap : (0 : BitVec 3).toNat = 0 := rfl
  have htop : (0 : BitVec 9).toNat = 0 := rfl
  refine ⟨extractLsb'_eq_of_toNat ?_, getLsbD_eq_of_toNat ?_, getLsbD_eq_of_toNat ?_, getLsbD_eq_of_toNat ?_,
    getLsbD_eq_of_toNat ?_, extractLsb'_eq_of_toNat ?_, extractLsb'_eq_of_toNat ?_, extractLsb'_eq_of_toNat ?_,
    extractLsb'_eq_of_toNat ?_⟩ <;>
    omega

/-- Settles O53: the sum and the fields of the word, and the two rules of a mapped access at the offset of `STATUS`. -/
theorem statusRegisterLayout : Obligations.StatusRegisterLayout := by
  have hreg : regAt 0x004 = some (.status, 0) := by decide
  refine ⟨statusWord_toNat, statusWord_fields, fun s => ?_, fun v s => ?_, by decide⟩
  · exact hostRead_of_regAt s (by decide) hreg
  · exact hostWrite_of_regAt v s (by decide) hreg (by decide)

end Sys2Proof.Proofs
end

section
/-! PROOFS. Accesses to the words of the register map: the converse of `regAt_row`, and what a write changes in the window
(R71, R76, R77). -/

namespace Sys2Proof.Proofs

open Sys2Proof Sys2Proof.Machine Sys2Proof.Claims

/-! ### The words of a row -/

/-- Word `i` of a row stands at `base + 4 * i`, an aligned offset (R71). -/
theorem regAt_word : ∀ row ∈ registerMap, ∀ i < row.size / 4,
    alignedWord (BitVec.ofNat 12 (row.base + 4 * i)) 4 = true ∧
    regAt (BitVec.ofNat 12 (row.base + 4 * i)) = some (row.name, i) := by
  decide

/-- A read of word `i` of a row (R78). -/
theorem hostRead_word {row : MapRow} {i : Nat} (hrow : row ∈ registerMap) (hi : i < row.size / 4) (s : State) :
    hostRead (BitVec.ofNat 12 (row.base + 4 * i)) 4 s = .next { s with readLog := s.readLog ++ [readReg row.name i s] } :=
  have ⟨ha, hr⟩ := regAt_word row hrow i hi
  hostRead_of_regAt s ha hr

/-- A write of word `i` of a row other than that of `CMD` (R78). -/
theorem hostWrite_word {row : MapRow} {i : Nat} (hrow : row ∈ registerMap) (hi : i < row.size / 4)
    (hn : row.name ≠ .cmd) (v : Word) (s : State) :
    hostWrite (BitVec.ofNat 12 (row.base + 4 * i)) 4 v s = .next (writeReg row.name i v s) :=
  have ⟨ha, hr⟩ := regAt_word row hrow i hi
  hostWrite_of_regAt v s ha hr hn

/-- Only the row of `KEYIN` bears its name, so an aligned offset of a `KEYIN` word gives its byte index. -/
theorem regAt_keyin_offset {off : Offset} {i n : Nat} (ha : alignedWord off n = true)
    (h : regAt off = some (.keyin, i)) : off.toNat = 0x010 + 4 * i := by
  obtain ⟨row, hrow, hname, hoff, -⟩ := regAt_row ha h
  have hbase : row.base = 0x010 := (show ∀ r ∈ registerMap, r.name = .keyin → r.base = 0x010 by decide) row hrow hname
  rw [hoff, hbase]

/-! ### Writes that are not to `CMD` -/

/-- Away from the offset of `CMD` a completed write is a register write (R77). -/
theorem hostWrite_cases_of_ne_cmd {off : Offset} {n : Nat} {v : Word} {s t : State} (hoff : off ≠ 0x000)
    (h : hostWrite off n v s = .next t) :
    alignedWord off n = true ∧ ∃ name i, regAt off = some (name, i) ∧ t = writeReg name i v s := by
  obtain ⟨ha, ⟨i, hr, -⟩ | ⟨name, i, -, hr, ht⟩⟩ := hostWrite_cases h
  · exact absurd (regAt_cmd ha hr).1 hoff
  · exact ⟨ha, name, i, hr, ht⟩

/-- A register write changes at most the four staging arrays. -/
theorem writeReg_frame (name : RegName) (i : Nat) (v : Word) (s : State) :
    writeReg name i v s = { s with
      keyin := (writeReg name i v s).keyin, noncein := (writeReg name i v s).noncein,
      constin := (writeReg name i v s).constin, din := (writeReg name i v s).din } := by
  cases name <;> simp only [writeReg]

/-- A staging array takes the word under its own name only (R78). -/
theorem writeReg_staging (name : RegName) (i : Nat) (v : Word) (s : State) :
    (writeReg name i v s).keyin = (if name = .keyin then putWord s.keyin i v else s.keyin) ∧
    (writeReg name i v s).noncein = (if name = .noncein then putWord s.noncein i v else s.noncein) ∧
    (writeReg name i v s).constin = (if name = .constin then putWord s.constin i v else s.constin) ∧
    (writeReg name i v s).din = (if name = .din then putWord s.din i v else s.din) := by
  cases name <;> simp [writeReg]

/-- An array that takes a word at index `i` at most under the condition `c` reads as before at any other word. -/
theorem wordAt_ite_putWord_other {n : Nat} {c : Prop} [Decidable c] (a : Bytes n) {i k : Nat} (h : c → k ≠ i) (v : Word) :
    wordAt (if c then putWord a i v else a) k = wordAt a k := by
  split
  next hc => exact wordAt_putWord_other a (h hc) v
  next => rfl

/-- A register write leaves every other word of the window as it reads: of the registers a read shows, only the three
staging arrays `NONCEIN`, `CONSTIN` and `DIN` can change. -/
theorem readReg_writeReg_other {name name' : RegName} {i i' : Nat} (h : (name', i') ≠ (name, i)) (v : Word) (s : State) :
    readReg name' i' (writeReg name i v s) = readReg name' i' s := by
  have hword : name = name' → i' ≠ i := fun hn hi => h (by rw [hn, hi])
  obtain ⟨-, hnoncein, hconstin, hdin⟩ := writeReg_staging name i v s
  cases name' with
  | noncein => simpa only [readReg, hnoncein] using wordAt_ite_putWord_other s.noncein hword v
  | constin => simpa only [readReg, hconstin] using wordAt_ite_putWord_other s.constin hword v
  | din => simpa only [readReg, hdin] using wordAt_ite_putWord_other s.din hword v
  | _ => rw [writeReg_frame]; simp only [readReg, statusWord]

/-! ### The window word at an offset -/

theorem windowWord_of_regAt {off : Offset} {name : RegName} {i : Nat} (h : regAt off = some (name, i)) (s : State) :
    windowWord off s = readReg name i s := by
  rw [windowWord, h]

theorem windowWord_unmapped {off : Offset} (h : regAt off = none) (s : State) : windowWord off s = 0 := by
  rw [windowWord, h]

/-- No register shows the read log. -/
theorem windowWord_withReadLog (off : Offset) (log : List Word) (s : State) :
    windowWord off { s with readLog := log } = windowWord off s := by
  cases hr : regAt off with
  | none => rw [windowWord_unmapped hr, windowWord_unmapped hr]
  | some reg =>
    obtain ⟨name, i⟩ := reg
    rw [windowWord_of_regAt hr, windowWord_of_regAt hr]
    cases name <;> simp only [readReg, statusWord]

/-- A register write changes the window at its own offset only: another aligned offset is another word (`regAt_inj`). -/
theorem windowWord_writeReg_other {off off' : Offset} {name : RegName} {i n : Nat} (ha : alignedWord off n = true)
    (hr : regAt off = some (name, i)) (ha' : off'.toNat % 4 = 0) (hne : off' ≠ off) (v : Word) (s : State) :
    windowWord off' (writeReg name i v s) = windowWord off' s := by
  cases hr' : regAt off' with
  | none => rw [windowWord_unmapped hr', windowWord_unmapped hr']
  | some reg =>
    obtain ⟨name', i'⟩ := reg
    have haligned : alignedWord off' 4 = true := by simp [alignedWord, ha']
    have hword : (name', i') ≠ (name, i) := fun e => hne (regAt_inj haligned ha (e ▸ hr') hr)
    rw [windowWord_of_regAt hr', windowWord_of_regAt hr', readReg_writeReg_other hword]

/-- A register write leaves every `KEYIN` byte outside the written word. -/
theorem byteAt_keyin_writeReg_outside {off : Offset} {name : RegName} {i n k : Nat} (ha : alignedWord off n = true)
    (hr : regAt off = some (name, i)) (hk : ¬ (0x010 + k < off.toNat + 4 ∧ off.toNat ≤ 0x010 + k)) (v : Word)
    (s : State) : byteAt (writeReg name i v s).keyin k = byteAt s.keyin k := by
  obtain ⟨hkeyin, -⟩ := writeReg_staging name i v s
  rw [hkeyin]
  split
  next hn =>
    have hoff := regAt_keyin_offset ha (hn ▸ hr)
    rw [byteAt_putWord, if_neg (by omega)]
  next => rfl

end Sys2Proof.Proofs
end

section
/-! PROOFS. The access rules of the window: write-only and read-only registers, side effects, and the session's copies (R49,
R76, R77, R81). -/

namespace Sys2Proof.Proofs

open Sys2Proof Sys2Proof.Machine Sys2Proof.Claims

/-- Settles O52: a read is the read-log update, which no window word shows; a write that is not to `CMD` is a register write,
with its frame, its window words and its `KEYIN` bytes. -/
theorem onlyCommandWritesHaveSideEffects : Obligations.OnlyCommandWritesHaveSideEffects := by
  refine ⟨fun off n s t h => ?_, fun off n v s t hoff h => ?_⟩
  · obtain ⟨-, name, i, hr, rfl⟩ := hostRead_cases h
    exact ⟨by rw [windowWord_of_regAt hr], fun off' => windowWord_withReadLog off' _ s⟩
  · obtain ⟨ha, name, i, hr, rfl⟩ := hostWrite_cases_of_ne_cmd hoff h
    exact ⟨writeReg_frame name i v s, fun off' ha' hne => windowWord_writeReg_other ha hr ha' hne v s,
      fun k _ hk => byteAt_keyin_writeReg_outside ha hr hk v s⟩

/-- Settles O51: each clause is the access of one row of the register map. -/
theorem writeOnlyAndReadOnlyRegisters : Obligations.WriteOnlyAndReadOnlyRegisters := by
  refine ⟨fun i s hi => ?_, fun s => ?_, fun v s => ?_, fun i v s hi => ?_, fun i v s hi => ⟨?_, ?_⟩, fun i s hi => ?_⟩
  · exact hostRead_word (row := ⟨0x010, 32, .keyin⟩) (by decide) hi s
  · exact hostRead_word (row := ⟨0x000, 4, .cmd⟩) (i := 0) (by decide) (by decide) s
  · exact hostWrite_word (row := ⟨0x004, 4, .status⟩) (i := 0) (by decide) (by decide) (by decide) v s
  · exact hostWrite_word (row := ⟨0x050, 16, .noncecur⟩) (by decide) hi (by decide) v s
  · exact hostWrite_word (row := ⟨0x0C0, 64, .dout⟩) (by decide) hi (by decide) v s
  · exact hostWrite_word (row := ⟨0x100, 64, .out⟩) (by decide) hi (by decide) v s
  · exact hostRead_word (row := ⟨0x050, 16, .noncecur⟩) (by decide) hi s

/-! ### NEXT and XOR read no staging register of INIT and BLOCK -/

section withStaging

variable (key : Bytes 32) (nonce const : Bytes 16)

theorem commandError_withStaging (i : Instr) (s : State) :
    commandError i (withStaging s key nonce const) = commandError i s := by
  cases i <;> rfl

theorem refill_withStaging (s : State) :
    refill (withStaging s key nonce const) = withStaging (refill s) key nonce const := by
  by_cases h : s.rem = 0
  · rw [refill_of_rem_eq_zero h, refill_of_rem_eq_zero (s := withStaging s key nonce const) h]; rfl
  · rw [refill_of_rem_ne_zero h, refill_of_rem_ne_zero (s := withStaging s key nonce const) h]

theorem xorByte_withStaging (n : Nat) (s : State) :
    xorByte n (withStaging s key nonce const) = withStaging (xorByte n s) key nonce const := by
  simp only [xorByte, afterTake, takenByte, refill_withStaging]
  rfl

theorem xorLoop_withStaging (n k : Nat) (s : State) :
    xorLoop n k (withStaging s key nonce const) = withStaging (xorLoop n k s) key nonce const := by
  induction n generalizing k s with
  | zero => rfl
  | succ n ih => rw [xorLoop, xorLoop, xorByte_withStaging, ih]

theorem commandEffect_withStaging {i : Instr} (hi : i = .next ∨ ∃ a b, i = .xor a b) (s : State) :
    commandEffect i (withStaging s key nonce const) = withStaging (commandEffect i s) key nonce const := by
  obtain rfl | ⟨a, b, rfl⟩ := hi
  · rfl
  · exact xorLoop_withStaging key nonce const a 0 s

/-- The checks and the writes of NEXT and XOR commute with replacing the staging registers, so their next state does. -/
theorem exec_withStaging {i : Instr} (hi : i = .next ∨ ∃ a b, i = .xor a b) {s t : State} (h : exec i s = .next t) :
    exec i (withStaging s key nonce const) = .next (withStaging t key nonce const) := by
  rw [exec_eq_raise_or_complete] at h ⊢
  injection h with h
  rw [← h, commandError_withStaging, commandEffect_withStaging key nonce const hi]
  cases commandError i s <;> rfl

end withStaging

/-- A register write leaves the session alone. -/
theorem writeReg_sameSession (name : RegName) (i : Nat) (v : Word) (s : State) : sameSession s (writeReg name i v s) := by
  rw [writeReg_frame]
  exact ⟨rfl, rfl, rfl, rfl, rfl, rfl, rfl, rfl⟩

/-- Settles O55: NEXT and XOR commute with replacing the staging registers, and a write that is not to `CMD` is a register
write. -/
theorem stagingWritesDoNotChangeTheSession : Obligations.StagingWritesDoNotChangeTheSession := by
  refine ⟨fun i s t key nonce const hi h => exec_withStaging key nonce const hi h, fun off n v s t hoff h => ?_⟩
  obtain ⟨-, name, i, -, rfl⟩ := hostWrite_cases_of_ne_cmd hoff h
  exact writeReg_sameSession name i v s

end Sys2Proof.Proofs
end

section
/-! PROOFS. The decoder as a table lookup: a word decodes to a command exactly when it matches the command's row and carries
its fields (R103, R104). -/

namespace Sys2Proof.Proofs

open Sys2Proof Sys2Proof.Machine Sys2Proof.Claims

/-! ### The five rows -/

theorem rowOf_mem (i : Instr) : rowOf i ∈ opcodeRows := by cases i <;> simp [rowOf, opcodeRows]

/-- Every row is the row of the command that takes its fields from the word. -/
theorem exists_instr_of_row (w : Word) : ∀ row ∈ opcodeRows, ∃ i, rowOf i = row ∧ fieldsAgree w i := by
  simp only [opcodeRows, List.forall_mem_cons]
  exact ⟨⟨.initStd _, rfl, rfl⟩, ⟨.initCustom _ _, rfl, rfl, rfl⟩, ⟨.next, rfl, trivial⟩, ⟨.xor _ _, rfl, rfl, rfl⟩,
    ⟨.block _, rfl, rfl⟩, by simp⟩

/-- A word matches a row only with the row's own `OP`. -/
theorem fieldOp_of_hit {w : Word} : ∀ row ∈ opcodeRows, row.hit w = true → fieldOp w = fieldOp row.pattern := by
  simp only [opcodeRows, List.forall_mem_cons, rowInitStd_hit, rowInitCustom_hit, rowNext_hit, rowXor_hit, rowBlock_hit]
  exact ⟨And.left, And.left, And.left, And.left, And.left, by simp⟩

/-- The `OP` values of the rows differ (R104). -/
theorem opcodeRows_op_pairwise_ne :
    opcodeRows.Pairwise fun row row' => fieldOp row.pattern ≠ fieldOp row'.pattern := by decide

/-- At most one row matches a word (R104). -/
theorem opcodeRows_hit_pairwise (w : Word) :
    opcodeRows.Pairwise fun row row' => ¬ (row.hit w = true ∧ row'.hit w = true) :=
  opcodeRows_op_pairwise_ne.imp_of_mem fun hr hr' hne ⟨h, h'⟩ =>
    hne ((fieldOp_of_hit _ hr h).symm.trans (fieldOp_of_hit _ hr' h'))

/-! ### What `decode` answers -/

theorem row_and_fields_of_decode {w : Word} {i : Instr} (h : decode w = .ok i) :
    (rowOf i).hit w = true ∧ fieldsAgree w i := by
  unfold decode at h
  repeat' split at h
  all_goals cases h
  · exact ⟨‹_›, rfl⟩
  · exact ⟨‹_›, rfl, rfl⟩
  · exact ⟨‹_›, trivial⟩
  · exact ⟨‹_›, rfl, rfl⟩
  · exact ⟨‹_›, rfl⟩

/-- The rows tested before the matching one ask for another `OP`. -/
theorem decode_of_row_and_fields {w : Word} {i : Instr} (hrow : (rowOf i).hit w = true) (hf : fieldsAgree w i) :
    decode w = .ok i := by
  cases i with
  | initStd klen =>
    obtain rfl := hf
    exact if_pos hrow
  | initCustom klen clen =>
    obtain ⟨rfl, rfl⟩ := hf
    have hop := ((rowInitCustom_hit w).1 hrow).1
    simp [decode, rowInitStd_hit, hop, show rowInitCustom.hit w = true from hrow]
  | next =>
    have hop := ((rowNext_hit w).1 hrow).1
    simp [decode, rowInitStd_hit, rowInitCustom_hit, hop, show rowNext.hit w = true from hrow]
  | xor lenIn lenOut =>
    obtain ⟨rfl, rfl⟩ := hf
    have hop := ((rowXor_hit w).1 hrow).1
    simp [decode, rowInitStd_hit, rowInitCustom_hit, rowNext_hit, hop, show rowXor.hit w = true from hrow]
  | block raw =>
    obtain rfl := hf
    have hop := ((rowBlock_hit w).1 hrow).1
    simp [decode, rowInitStd_hit, rowInitCustom_hit, rowNext_hit, rowXor_hit, hop,
      show rowBlock.hit w = true from hrow]

theorem decode_eq_ok_iff (w : Word) (i : Instr) :
    decode w = .ok i ↔ (rowOf i).hit w = true ∧ fieldsAgree w i :=
  ⟨row_and_fields_of_decode, fun ⟨hrow, hf⟩ => decode_of_row_and_fields hrow hf⟩

/-- A word is illegal exactly when no row matches it (R104). -/
theorem decode_error_iff_no_hit (w : Word) :
    (∃ e, decode w = .error e) ↔ ∀ row ∈ opcodeRows, row.hit w = false := by
  constructor
  · rintro ⟨e, he⟩ row hrow
    obtain ⟨i, rfl, hf⟩ := exists_instr_of_row w row hrow
    by_contra hhit
    rw [decode_of_row_and_fields (Bool.not_eq_false _ ▸ hhit) hf] at he
    cases he
  · intro hmiss
    cases hd : decode w with
    | error e => exact ⟨e, rfl⟩
    | ok i =>
      have hhit := (row_and_fields_of_decode hd).1
      rw [hmiss _ (rowOf_mem i)] at hhit
      cases hhit

/-- Settles O3: `decode` is the lookup of the one row whose mask and match fit the word. -/
theorem decodeReturnsTheMatchingRow : Obligations.DecodeReturnsTheMatchingRow :=
  ⟨decode_eq_ok_iff, opcodeRows_hit_pairwise, decode_error_iff_no_hit,
    fun _ _ s h => runCommand_of_decode_ok s h, fun _ _ s h => runCommand_of_decode_error s h⟩

end Sys2Proof.Proofs
end

section
/-! PROOFS. `decode` and `encode` are inverse on legal words and well-formed commands, field by field (R100 to R103, R105). -/

namespace Sys2Proof.Proofs

open Sys2Proof Sys2Proof.Machine Sys2Proof.Claims

theorem fitsField_iff (n : Nat) : fitsField n = true ↔ n < 256 := decide_eq_true_iff

/-- A byte count that fits its field is the value of the byte written there. -/
theorem toNat_ofNat_of_fitsField {n : Nat} (h : fitsField n = true) : (BitVec.ofNat 8 n).toNat = n := by
  rw [BitVec.toNat_ofNat, Nat.mod_eq_of_lt ((fitsField_iff n).1 h)]

theorem fitsField_toNat (b : Byte) : fitsField b.toNat = true := (fitsField_iff _).2 b.isLt

/-- The word of any command matches the command's row (R103). -/
theorem rowOf_hit_encode (i : Instr) : (rowOf i).hit (encode i) = true := by
  cases i with
  | initStd klen => exact Laws.EncodeMatchesRow.initStd klen
  | initCustom klen clen => exact Laws.EncodeMatchesRow.initCustom klen clen
  | next => exact Laws.EncodeMatchesRow.next
  | xor lenIn lenOut => exact Laws.EncodeMatchesRow.xor lenIn lenOut
  | block raw => exact Laws.EncodeMatchesRow.block raw

/-- The word of a well-formed command carries the command's fields (R101, R103). -/
theorem fieldsAgree_encode {i : Instr} (h : wellFormed i = true) : fieldsAgree (encode i) i := by
  cases i with
  | initStd klen =>
    obtain ⟨-, ha, -, -⟩ := fields_packFields 0x01 (BitVec.ofNat 8 klen) 0
    rw [fieldsAgree, encode, ha, toNat_ofNat_of_fitsField h]
  | initCustom klen clen =>
    obtain ⟨hk, hc⟩ := Bool.and_eq_true_iff.1 h
    obtain ⟨-, ha, hb, -⟩ := fields_packFields 0x02 (BitVec.ofNat 8 klen) (BitVec.ofNat 8 clen)
    rw [fieldsAgree, encode, ha, hb, toNat_ofNat_of_fitsField hk, toNat_ofNat_of_fitsField hc]
    exact ⟨rfl, rfl⟩
  | next => trivial
  | xor lenIn lenOut =>
    obtain ⟨hi, ho⟩ := Bool.and_eq_true_iff.1 h
    obtain ⟨-, ha, hb, -⟩ := fields_packFields 0x04 (BitVec.ofNat 8 lenIn) (BitVec.ofNat 8 lenOut)
    rw [fieldsAgree, encode, ha, hb, toNat_ofNat_of_fitsField hi, toNat_ofNat_of_fitsField ho]
    exact ⟨rfl, rfl⟩
  | block raw => cases raw <;> rfl

theorem decode_encode {i : Instr} (h : wellFormed i = true) : decode (encode i) = .ok i :=
  decode_of_row_and_fields (rowOf_hit_encode i) (fieldsAgree_encode h)

/-- A command whose byte counts are read from fields is well formed (R101). -/
theorem wellFormed_of_fieldsAgree {w : Word} {i : Instr} (h : fieldsAgree w i) : wellFormed i = true := by
  cases i with
  | initStd klen =>
    obtain rfl := h
    exact fitsField_toNat _
  | initCustom klen clen =>
    obtain ⟨rfl, rfl⟩ := h
    exact Bool.and_eq_true_iff.2 ⟨fitsField_toNat _, fitsField_toNat _⟩
  | next => rfl
  | xor lenIn lenOut =>
    obtain ⟨rfl, rfl⟩ := h
    exact Bool.and_eq_true_iff.2 ⟨fitsField_toNat _, fitsField_toNat _⟩
  | block raw => rfl

/-- A field that may hold the `RAW` bit alone is that bit (R103). -/
theorem fieldA_eq_raw {w : Word} (h : (fieldA w).toNat / 2 = 0) : fieldA w = if w.getLsbD 8 then 1 else 0 := by
  have hbit : (fieldA w).getLsbD 0 = w.getLsbD 8 := by simp [fieldA]
  have hbyte : ∀ a : Byte, a.toNat / 2 = 0 → a = if a.getLsbD 0 then 1 else 0 := by decide
  rw [← hbit]
  exact hbyte _ h

/-- A word is the encoding of the command it matches: the row fixes every field the command does not carry (R105). -/
theorem encode_of_row_and_fields {w : Word} {i : Instr} (hrow : (rowOf i).hit w = true) (hf : fieldsAgree w i) :
    encode i = w := by
  cases i with
  | initStd klen =>
    obtain rfl := hf
    obtain ⟨hop, hb, hrsv⟩ := (rowInitStd_hit w).1 hrow
    refine Eq.trans ?_ (packFields_fields w hrsv)
    simp [encode, hop, hb]
  | initCustom klen clen =>
    obtain ⟨rfl, rfl⟩ := hf
    obtain ⟨hop, hrsv⟩ := (rowInitCustom_hit w).1 hrow
    refine Eq.trans ?_ (packFields_fields w hrsv)
    simp [encode, hop]
  | next =>
    obtain ⟨hop, ha, hb, hrsv⟩ := (rowNext_hit w).1 hrow
    refine Eq.trans ?_ (packFields_fields w hrsv)
    simp [encode, hop, ha, hb]
  | xor lenIn lenOut =>
    obtain ⟨rfl, rfl⟩ := hf
    obtain ⟨hop, hrsv⟩ := (rowXor_hit w).1 hrow
    refine Eq.trans ?_ (packFields_fields w hrsv)
    simp [encode, hop]
  | block raw =>
    obtain rfl := hf
    obtain ⟨hop, ha, hb, hrsv⟩ := (rowBlock_hit w).1 hrow
    refine Eq.trans ?_ (packFields_fields w hrsv)
    simp [encode, hop, fieldA_eq_raw ha, hb]

theorem encode_of_decode {w : Word} {i : Instr} (h : decode w = .ok i) : encode i = w :=
  have ⟨hrow, hf⟩ := row_and_fields_of_decode h
  encode_of_row_and_fields hrow hf

theorem wellFormed_of_decode {w : Word} {i : Instr} (h : decode w = .ok i) : wellFormed i = true :=
  wellFormed_of_fieldsAgree (row_and_fields_of_decode h).2

end Sys2Proof.Proofs
end

section
/-! PROOFS. The illegal words, their one behaviour, and the number of legal words (R105). -/

namespace Sys2Proof.Proofs

open Sys2Proof Sys2Proof.Machine Sys2Proof.Claims

/-- Which words no row matches, `OP` by `OP` (R105). -/
theorem decode_error_iff_fields (w : Word) : (∃ e, decode w = .error e) ↔
    fieldRsv w ≠ 0 ∨ (fieldOp w).toNat = 0 ∨ 5 < (fieldOp w).toNat ∨
    ((fieldOp w).toNat = 1 ∧ fieldB w ≠ 0) ∨
    ((fieldOp w).toNat = 3 ∧ (fieldA w ≠ 0 ∨ fieldB w ≠ 0)) ∨
    ((fieldOp w).toNat = 5 ∧ ((fieldA w).toNat / 2 ≠ 0 ∨ fieldB w ≠ 0)) := by
  rw [decode_error_iff_no_hit]
  simp only [opcodeRows, List.forall_mem_cons, ← Bool.not_eq_true, rowInitStd_hit, rowInitCustom_hit, rowNext_hit,
    rowXor_hit, rowBlock_hit, BitVec.toNat_eq (x := fieldOp w)]
  by_cases hrsv : fieldRsv w = 0#8
  · have hop : 5 < (fieldOp w).toNat ∨ (fieldOp w).toNat = 0 ∨ (fieldOp w).toNat = 1 ∨ (fieldOp w).toNat = 2 ∨
        (fieldOp w).toNat = 3 ∨ (fieldOp w).toNat = 4 ∨ (fieldOp w).toNat = 5 := by omega
    obtain hlarge | h | h | h | h | h | h := hop
    · have hne (k : Nat) (hk : k ≤ 5) : (fieldOp w).toNat ≠ k := by omega
      simp [hlarge, hne]
    all_goals simp [hrsv, h, imp_iff_not_or]
  · simp [hrsv]

/-- An illegal word sets `err` to 1 and `fault`, and changes nothing else (R105, R277). -/
theorem raise_opcode (s : State) : raise .opcode s = { s with err := 1, fault := true, phase := .idle } := by
  simp [raise, ErrCode.code, ErrCode.endsSession]

/-! ### Counting the legal words -/

/-- The field values of the commands, row by row: `KLEN`; `KLEN` and `CLEN`; none; the two lengths; `RAW` (R101). -/
abbrev CommandFields := Fin 256 ⊕ (Fin 256 × Fin 256) ⊕ Unit ⊕ (Fin 256 × Fin 256) ⊕ Bool

/-- The command with given field values. -/
def commandOfFields : CommandFields → Instr
  | .inl klen => .initStd klen
  | .inr (.inl (klen, clen)) => .initCustom klen clen
  | .inr (.inr (.inl ())) => .next
  | .inr (.inr (.inr (.inl (lenIn, lenOut)))) => .xor lenIn lenOut
  | .inr (.inr (.inr (.inr raw))) => .block raw

/-- The field values of a command, each byte count reduced to its field. -/
def fieldsOfCommand : Instr → CommandFields
  | .initStd klen => .inl (Fin.ofNat 256 klen)
  | .initCustom klen clen => .inr (.inl (Fin.ofNat 256 klen, Fin.ofNat 256 clen))
  | .next => .inr (.inr (.inl ()))
  | .xor lenIn lenOut => .inr (.inr (.inr (.inl (Fin.ofNat 256 lenIn, Fin.ofNat 256 lenOut))))
  | .block raw => .inr (.inr (.inr (.inr raw)))

theorem fieldsOfCommand_commandOfFields : Function.LeftInverse fieldsOfCommand commandOfFields
  | .inl klen => by simp [commandOfFields, fieldsOfCommand]
  | .inr (.inl (klen, clen)) => by simp [commandOfFields, fieldsOfCommand]
  | .inr (.inr (.inl ())) => rfl
  | .inr (.inr (.inr (.inl (lenIn, lenOut)))) => by simp [commandOfFields, fieldsOfCommand]
  | .inr (.inr (.inr (.inr raw))) => rfl

theorem val_ofNat_of_fitsField {n : Nat} (h : fitsField n = true) : (Fin.ofNat 256 n : Nat) = n :=
  Nat.mod_eq_of_lt ((fitsField_iff n).1 h)

theorem commandOfFields_fieldsOfCommand {i : Instr} (h : wellFormed i = true) :
    commandOfFields (fieldsOfCommand i) = i := by
  cases i with
  | initStd klen => rw [fieldsOfCommand, commandOfFields, val_ofNat_of_fitsField h]
  | initCustom klen clen =>
    obtain ⟨hk, hc⟩ := Bool.and_eq_true_iff.1 h
    rw [fieldsOfCommand, commandOfFields, val_ofNat_of_fitsField hk, val_ofNat_of_fitsField hc]
  | next => rfl
  | xor lenIn lenOut =>
    obtain ⟨hi, ho⟩ := Bool.and_eq_true_iff.1 h
    rw [fieldsOfCommand, commandOfFields, val_ofNat_of_fitsField hi, val_ofNat_of_fitsField ho]
  | block raw => rfl

theorem wellFormed_commandOfFields : ∀ f : CommandFields, wellFormed (commandOfFields f) = true
  | .inl klen => (fitsField_iff _).2 klen.isLt
  | .inr (.inl (klen, clen)) => Bool.and_eq_true_iff.2 ⟨(fitsField_iff _).2 klen.isLt, (fitsField_iff _).2 clen.isLt⟩
  | .inr (.inr (.inl ())) => rfl
  | .inr (.inr (.inr (.inl (lenIn, lenOut)))) =>
    Bool.and_eq_true_iff.2 ⟨(fitsField_iff _).2 lenIn.isLt, (fitsField_iff _).2 lenOut.isLt⟩
  | .inr (.inr (.inr (.inr _))) => rfl

/-- Decoding and reading off the fields undoes it. -/
theorem encode_commandOfFields_injective : Function.Injective (encode ∘ commandOfFields) := fun f g h => by
  have hd := congrArg decode h
  simp only [Function.comp, decode_encode (wellFormed_commandOfFields _)] at hd
  exact fieldsOfCommand_commandOfFields.injective (Except.ok.inj hd)

theorem legalWords_eq_range : { w : Word | ∃ i, decode w = .ok i } = Set.range (encode ∘ commandOfFields) := by
  ext w
  constructor
  · rintro ⟨i, hi⟩
    refine ⟨fieldsOfCommand i, ?_⟩
    rw [Function.comp, commandOfFields_fieldsOfCommand (wellFormed_of_decode hi), encode_of_decode hi]
  · rintro ⟨f, rfl⟩
    exact ⟨_, decode_encode (wellFormed_commandOfFields f)⟩

theorem card_commandFields : Nat.card CommandFields = 256 + (256 * 256 + (1 + (256 * 256 + 2))) := by
  rw [Nat.card_sum, Nat.card_sum, Nat.card_sum, Nat.card_sum, Nat.card_prod, Nat.card_fin, Nat.card_unique,
    Nat.card_eq_fintype_card (α := Bool), Fintype.card_bool]

/-- The number of legal words (R105). -/
theorem ncard_legalWords : Set.ncard { w : Word | ∃ i, decode w = .ok i } = 131331 := by
  rw [legalWords_eq_range, ← Nat.card_coe_set_eq, Nat.card_range_of_injective encode_commandOfFields_injective,
    card_commandFields]

/-- Settles O4: the words no row matches, the rule of an illegal word, and the legal words as the encodings of the
commands. -/
theorem illegalWordsAreCounted : Obligations.IllegalWordsAreCounted :=
  ⟨decode_error_iff_fields, fun _ _ s h => by rw [runCommand_of_decode_error s h, raise_opcode], ncard_legalWords⟩

end Sys2Proof.Proofs
end

section
/-! PROOFS. The worked encodings and their refusals (R110). -/

namespace Sys2Proof.Proofs

open Sys2Proof Sys2Proof.Machine Sys2Proof.Claims

/-- Settles O5: the listed words are evaluated; the two refusals are the commands' first failing
checks. -/
theorem workedEncodings : Obligations.WorkedEncodings := by
  refine ⟨by decide, by decide, by decide, by decide, by decide, by decide, by decide, by decide, by decide, by decide,
    by decide, by decide, by decide, fun s => exec_of_commandError rfl, fun s hvalid => exec_of_commandError ?_⟩
  simp [commandError, hvalid]

end Sys2Proof.Proofs
end

section
/-! PROOFS. The ARX primitives and the word and byte views (R130 to R136). -/

namespace Sys2Proof.Proofs

open Sys2Proof Sys2Proof.Machine Sys2Proof.Claims

/-- Settles O6: `ADD32` is word addition and `XOR32` bitwise exclusive or; the examples are evaluated. -/
theorem addAndXorPrimitives : Obligations.AddAndXorPrimitives := by
  refine ⟨BitVec.toNat_add, BitVec.add_comm, BitVec.add_assoc, BitVec.add_zero, by decide, by decide, by decide, ?_,
    fun _ => BitVec.xor_self, fun _ => BitVec.xor_zero, fun a b => ?_, by decide⟩
  · intro a b i
    rw [xor32, BitVec.getLsbD_xor]
    cases a.getLsbD i <;> cases b.getLsbD i <;> rfl
  · rw [xor32, xor32, BitVec.xor_assoc, BitVec.xor_self, BitVec.xor_zero]

/-- For the amounts the spec allows, `ROTL32` is the library's rotation. -/
theorem rotl32_eq_rotateLeft (v : Word) {n : Nat} (hn : n < 32) : rotl32 v n = v.rotateLeft n := by
  rw [BitVec.rotateLeft_def, Nat.mod_eq_of_lt hn, rotl32]

/-- Bit `i` of a rotated word. -/
theorem getLsbD_rotl32 (v : Word) {n i : Nat} (hn : n < 32) (hi : i < 32) :
    (rotl32 v n).getLsbD i = if i < n then v.getLsbD (32 - n + i) else v.getLsbD (i - n) := by
  rw [rotl32_eq_rotateLeft v hn, BitVec.getLsbD_rotateLeft, Nat.mod_eq_of_lt hn]
  simp [hi, cond_eq_ite]

/-- The bits shifted out on the left and those shifted in on the right do not overlap. -/
theorem shiftLeft_and_shiftRight_eq_zero (v : Word) {n : Nat} (hn : n < 32) : v <<< n &&& v >>> (32 - n) = 0 := by
  apply BitVec.eq_of_getLsbD_eq
  intro i _
  rw [BitVec.getLsbD_and, BitVec.getLsbD_shiftLeft, BitVec.getLsbD_ushiftRight]
  by_cases hin : i < n
  · simp [hin]
  · simp [BitVec.getLsbD_of_ge v (32 - n + i) (by omega)]

/-- The arithmetic form of the rotation (R132). -/
theorem toNat_rotl32 (v : Word) {n : Nat} (hn : n < 32) :
    (rotl32 v n).toNat = (v.toNat * 2 ^ n) % 2 ^ 32 + v.toNat / 2 ^ (32 - n) := by
  have hsum : rotl32 v n = v <<< n + v >>> (32 - n) :=
    (BitVec.add_eq_or_of_and_eq_zero _ _ (shiftLeft_and_shiftRight_eq_zero v hn)).symm
  rw [hsum, BitVec.toNat_add_of_and_eq_zero (shiftLeft_and_shiftRight_eq_zero v hn), BitVec.toNat_shiftLeft,
    BitVec.toNat_ushiftRight, Nat.shiftLeft_eq, Nat.shiftRight_eq_div_pow]

/-- The bit form of the rotation (R132). -/
theorem getLsbD_rotl32_rotated (v : Word) {n i : Nat} (hn : n < 32) (hi : i < 32) :
    (rotl32 v n).getLsbD ((i + n) % 32) = v.getLsbD i := by
  rw [getLsbD_rotl32 v hn (Nat.mod_lt _ (by omega))]
  by_cases hwrap : i + n < 32
  · rw [Nat.mod_eq_of_lt hwrap, if_neg (by omega), Nat.add_sub_cancel]
  · rw [if_pos (by omega), show 32 - n + (i + n) % 32 = i by omega]

theorem rotl32_zero (n : Nat) : rotl32 0 n = 0 := by
  simp [rotl32]

theorem rotl32_allOnes {n : Nat} (hn : n < 32) : rotl32 0xFFFFFFFF n = 0xFFFFFFFF := by
  have hbit : ∀ i < 32, (0xFFFFFFFF : Word).getLsbD i = true := by decide
  apply BitVec.eq_of_getLsbD_eq
  intro i hi
  rw [getLsbD_rotl32 _ hn hi, hbit i hi]
  split
  · exact hbit _ (by omega)
  · exact hbit _ (by omega)

/-- Settles O7: the two forms of the rotation, its fixed words, and the evaluated examples. -/
theorem rotateLeftPrimitive : Obligations.RotateLeftPrimitive :=
  ⟨fun v n _ hn => ⟨toNat_rotl32 v hn, fun _ hi => getLsbD_rotl32_rotated v hn hi, rotl32_zero n, rotl32_allOnes hn⟩,
    by decide, by decide, by decide, by decide, by decide, by decide, by decide, by decide, by decide⟩

/-- The value of a word appended above a byte. -/
theorem toNat_append_byte {m : Nat} (x : BitVec m) (b : Byte) : (x ++ b).toNat = 2 ^ 8 * x.toNat + b.toNat := by
  rw [BitVec.toNat_append, ← Nat.shiftLeft_add_eq_or_of_lt b.isLt, Nat.shiftLeft_eq, Nat.mul_comm]

/-- The value of a loaded word (R134). -/
theorem toNat_le32 (b0 b1 b2 b3 : Byte) :
    (le32 b0 b1 b2 b3).toNat = b0.toNat + 2 ^ 8 * b1.toNat + 2 ^ 16 * b2.toNat + 2 ^ 24 * b3.toNat := by
  have happend : (le32 b0 b1 b2 b3).toNat = (b3 ++ b2 ++ b1 ++ b0).toNat := rfl
  rw [happend, toNat_append_byte, toNat_append_byte, toNat_append_byte]
  omega

/-- The value of a stored byte (R135). -/
theorem toNat_byteAt_st32 (v : Word) {k : Nat} (hk : k < 4) :
    (byteAt (st32 v) k).toNat = v.toNat / 2 ^ (8 * k) % 256 := by
  rw [byteAt_st32 v hk, BitVec.extractLsb'_toNat, Nat.shiftRight_eq_div_pow]

/-- Loading the four stored bytes of a word gives the word back (R135). -/
theorem le32_st32 (v : Word) :
    le32 (byteAt (st32 v) 0) (byteAt (st32 v) 1) (byteAt (st32 v) 2) (byteAt (st32 v) 3) = v := by
  rw [byteAt_st32 v (by omega), byteAt_st32 v (by omega), byteAt_st32 v (by omega), byteAt_st32 v (by omega)]
  exact le32_extract v

/-- Settles O8: the formulas of `LE32` and `ST32`, their two inverse laws, and the evaluated examples. -/
theorem littleEndianLoadAndStore : Obligations.LittleEndianLoadAndStore :=
  ⟨toNat_le32, fun v _ hk => toNat_byteAt_st32 v hk, le32_st32, st32_le32,
    by decide, by decide, by decide, by decide, by decide, by decide⟩

/-- Settles O9: the byte written at each index of the array gives both the byte view and the word view of the write. -/
theorem wordViewIsByteView : Obligations.WordViewIsByteView := by
  intro n a i v hi
  refine ⟨fun k hk => ?_, fun k hk => ?_, rfl, wordAt_putWord_same a hi v, fun k hk => wordAt_putWord_other a hk v⟩
  · rw [byteAt_putWord, if_pos (by omega), Nat.add_sub_cancel_left]
  · rw [byteAt_putWord, if_neg (by omega)]

end Sys2Proof.Proofs
end

section
/-! PROOFS. The quarter-round on one lane: its eight statements, the words it leaves, and its undoing (R150, R152). -/

namespace Sys2Proof.Proofs

open Sys2Proof Sys2Proof.Machine Sys2Proof.Claims

/-! ### The quarter-round on the registers, and on four words -/

/-- What every register reads after one step of `QR` (R150). -/
theorem getElem_qrStep {a d : Fin 16} (had : a ≠ d) (b : Fin 16) (n : Nat) (x : Words) (k : Fin 16) :
    (qrStep a b d n x)[k] =
      if k = d then rotl32 (xor32 x[d] (add32 x[a] x[b])) n else if k = a then add32 x[a] x[b] else x[k] := by
  have hval : a.val ≠ d.val := Fin.val_ne_of_ne had
  simp [qrStep, Vector.getElem_set, hval, Fin.val_inj, eq_comm (b := k)]

/-- The four registers of a lane are different exactly when its six pairs differ. -/
theorem laneIndices_nodup_iff (l : Lane) : (laneIndices l).Nodup ↔
    (l.a ≠ l.b ∧ l.a ≠ l.c ∧ l.a ≠ l.d) ∧ (l.b ≠ l.c ∧ l.b ≠ l.d) ∧ l.c ≠ l.d := by
  simp [laneIndices]

/-- Steps 1 and 3 act on the lane as on its four words. -/
theorem quadAt_qrStep_first {l : Lane} (h : (laneIndices l).Nodup) (n : Nat) (x : Words) :
    quadAt l (qrStep l.a l.b l.d n x) = quadStepA n (quadAt l x) := by
  obtain ⟨⟨hab, hac, had⟩, ⟨-, hbd⟩, hcd⟩ := (laneIndices_nodup_iff l).1 h
  simp [quadAt, quadStepA, getElem_qrStep had, had, hbd, hcd, hab.symm, hac.symm, -Fin.getElem_fin]

/-- The two halves of a quadruple exchanged. -/
def swapHalves (v : Quad) : Quad := ⟨v.c, v.d, v.a, v.b⟩

theorem swapHalves_involutive : Function.Involutive swapHalves := fun _ => rfl

/-- Steps 2 and 4 are steps 1 and 3 with the halves exchanged (R150). -/
theorem quadStepC_eq (n : Nat) : quadStepC n = swapHalves ∘ quadStepA n ∘ swapHalves := rfl

/-- Steps 2 and 4 act on the lane as on its four words. -/
theorem quadAt_qrStep_second {l : Lane} (h : (laneIndices l).Nodup) (n : Nat) (x : Words) :
    quadAt l (qrStep l.c l.d l.b n x) = quadStepC n (quadAt l x) := by
  have hswap : (laneIndices ⟨l.c, l.d, l.a, l.b⟩).Nodup :=
    (List.nodup_append_comm (l₁ := [l.a, l.b]) (l₂ := [l.c, l.d])).1 h
  rw [quadStepC_eq]
  exact congrArg swapHalves (quadAt_qrStep_first hswap n x)

/-- `QR` on a lane is `QRF` of its four words (R152). -/
theorem quadAt_qrLane {l : Lane} (h : (laneIndices l).Nodup) (x : Words) :
    quadAt l (qrLane l x) = qrf (quadAt l x) := by
  rw [qrLane, qr, quadAt_qrStep_second h, quadAt_qrStep_first h, quadAt_qrStep_second h, quadAt_qrStep_first h, qrf]

/-- `QR` leaves the twelve other words (R150). -/
theorem getElem_qrLane_of_notMem {l : Lane} (h : (laneIndices l).Nodup) (x : Words) {k : Fin 16}
    (hk : k ∉ laneIndices l) : (qrLane l x)[k] = x[k] := by
  obtain ⟨⟨-, -, had⟩, ⟨hbc, -⟩, -⟩ := (laneIndices_nodup_iff l).1 h
  simp only [laneIndices, List.mem_cons, List.not_mem_nil, or_false, not_or] at hk
  obtain ⟨hka, hkb, hkc, hkd⟩ := hk
  simp only [qrLane, qr, getElem_qrStep had, getElem_qrStep hbc.symm, if_neg hka, if_neg hkb, if_neg hkc, if_neg hkd]

/-- Four given words run through `QR` become their `QRF`. -/
theorem quarter_eq_qrf (a b c d : Word) : quarter a b c d = qrf ⟨a, b, c, d⟩ :=
  quadAt_qrLane (l := ⟨0, 1, 2, 3⟩) (by decide) _

/-- Settles O10: the values of the eight statements are the components of `QRF`; the examples are evaluated. -/
theorem quarterRoundEightStatements : Obligations.QuarterRoundEightStatements := by
  refine ⟨fun a b c d x hnodup => ?_, ?_, ?_, ?_, ?_, ?_⟩
  · have hquad := quadAt_qrLane (l := ⟨a, b, c, d⟩) hnodup x
    exact ⟨congrArg Quad.a hquad, congrArg Quad.b hquad, congrArg Quad.c hquad, congrArg Quad.d hquad,
      fun k hk => getElem_qrLane_of_notMem (l := ⟨a, b, c, d⟩) hnodup x hk⟩
  all_goals
    rw [quarter_eq_qrf]
    decide

/-! ### Undoing the quarter-round -/

/-- Rotating the other way undoes a rotation (R132). -/
theorem rotl32_complement_rotl32 (v : Word) {n : Nat} (hpos : 0 < n) (hn : n < 32) :
    rotl32 (rotl32 v n) (32 - n) = v := by
  apply BitVec.eq_of_getLsbD_eq
  intro i hi
  have hback : ((i + n) % 32 + (32 - n)) % 32 = i := by omega
  have hbit := getLsbD_rotl32_rotated (rotl32 v n) (n := 32 - n) (i := (i + n) % 32) (by omega) (Nat.mod_lt _ (by omega))
  rwa [hback, getLsbD_rotl32_rotated v hn hi] at hbit

theorem rotl32_rotl32_complement (v : Word) {n : Nat} (hpos : 0 < n) (hn : n < 32) :
    rotl32 (rotl32 v (32 - n)) n = v := by
  have h := rotl32_complement_rotl32 v (n := 32 - n) (by omega) (by omega)
  rwa [Nat.sub_sub_self hn.le] at h

/-- Undoes `quadStepA` statement by statement: rotate the other way, exclusive or, subtract (R152). -/
def undoStepA (n : Nat) (v : Quad) : Quad :=
  { v with a := v.a - v.b, d := xor32 (rotl32 v.d (32 - n)) v.a }

theorem undoStepA_quadStepA {n : Nat} (hpos : 0 < n) (hn : n < 32) (v : Quad) : undoStepA n (quadStepA n v) = v := by
  simp [undoStepA, quadStepA, rotl32_complement_rotl32 _ hpos hn, xor32, add32]

theorem quadStepA_undoStepA {n : Nat} (hpos : 0 < n) (hn : n < 32) (v : Quad) : quadStepA n (undoStepA n v) = v := by
  simp [undoStepA, quadStepA, rotl32_rotl32_complement _ hpos hn, xor32, add32]

theorem quadStepA_bijective {n : Nat} (hpos : 0 < n) (hn : n < 32) : Function.Bijective (quadStepA n) :=
  Function.bijective_iff_has_inverse.2 ⟨undoStepA n, undoStepA_quadStepA hpos hn, quadStepA_undoStepA hpos hn⟩

theorem quadStepC_bijective {n : Nat} (hpos : 0 < n) (hn : n < 32) : Function.Bijective (quadStepC n) :=
  quadStepC_eq n ▸ swapHalves_involutive.bijective.comp ((quadStepA_bijective hpos hn).comp swapHalves_involutive.bijective)

/-- `QRF` is its four steps one after the other (R151). -/
theorem qrf_eq : qrf = quadStepC 7 ∘ quadStepA 8 ∘ quadStepC 12 ∘ quadStepA 16 := rfl

theorem qrf_bijective : Function.Bijective qrf :=
  qrf_eq ▸ (quadStepC_bijective (by decide) (by decide)).comp ((quadStepA_bijective (by decide) (by decide)).comp
    ((quadStepC_bijective (by decide) (by decide)).comp (quadStepA_bijective (by decide) (by decide))))

/-- Settles O11: a lane of different registers behaves as its four words, and each of the four steps can be undone. -/
theorem quarterRoundIsABijection : Obligations.QuarterRoundIsABijection :=
  ⟨fun _ x h => quadAt_qrLane h x, qrf_bijective⟩

end Sys2Proof.Proofs
end

section
/-! PROOFS. A round as four independent lanes: what it does to each lane, and that the lanes' order and the rotation of the rows
do not matter (R153 to R155). -/

namespace Sys2Proof.Proofs

open Sys2Proof Sys2Proof.Machine Sys2Proof.Claims

/-! ### Lanes that partition the registers -/

/-- Each lane has four different registers, and every register is in exactly one lane (R155). -/
structure PartitionsRegisters (lane : Fin 4 → Lane) : Prop where
  nodup : ∀ k, (laneIndices (lane k)).Nodup
  existsUnique_lane : ∀ i : Fin 16, ∃! k, i ∈ laneIndices (lane k)

theorem colLane_partitionsRegisters : PartitionsRegisters colLane where
  nodup := by decide
  existsUnique_lane := by
    unfold ExistsUnique
    decide

theorem diagLane_partitionsRegisters : PartitionsRegisters diagLane where
  nodup := by decide
  existsUnique_lane := by
    unfold ExistsUnique
    decide

/-- The words of a lane agree exactly when its registers do. -/
theorem quadAt_eq_iff (l : Lane) (x y : Words) : quadAt l x = quadAt l y ↔ ∀ i ∈ laneIndices l, x[i] = y[i] := by
  simp [quadAt, laneIndices]

section
variable {lane : Fin 4 → Lane} (h : PartitionsRegisters lane)
include h

/-- A register bank is its four lanes. -/
theorem words_ext_of_quadAt {x y : Words} (hquad : ∀ k, quadAt (lane k) x = quadAt (lane k) y) : x = y := by
  apply Vector.ext
  intro i hi
  obtain ⟨k, hk, -⟩ := h.existsUnique_lane ⟨i, hi⟩
  exact (quadAt_eq_iff _ x y).1 (hquad k) _ hk

/-- The quarter-round on one lane leaves the others. -/
theorem quadAt_qrLane_other {k k' : Fin 4} (hne : k ≠ k') (x : Words) :
    quadAt (lane k) (qrLane (lane k') x) = quadAt (lane k) x :=
  (quadAt_eq_iff _ _ _).2 fun i hi =>
    getElem_qrLane_of_notMem (h.nodup k') x fun hi' => hne ((h.existsUnique_lane i).unique hi hi')

/-- Quarter-rounds on different lanes: each lane that is named gets its `QRF` once, the others stay (R155). -/
theorem quadAt_onLanes {order : List (Fin 4)} (hnodup : order.Nodup) (k : Fin 4) (x : Words) :
    quadAt (lane k) (onLanes lane order x) = if k ∈ order then qrf (quadAt (lane k) x) else quadAt (lane k) x := by
  induction order generalizing x with
  | nil => rfl
  | cons k' order ih =>
    obtain ⟨hfirst, hrest⟩ := List.nodup_cons.1 hnodup
    have hcons : onLanes lane (k' :: order) x = onLanes lane order (qrLane (lane k') x) := rfl
    rw [hcons, ih hrest]
    by_cases hk : k = k'
    · subst hk
      rw [if_neg hfirst, if_pos List.mem_cons_self, quadAt_qrLane (h.nodup k)]
    · simp only [quadAt_qrLane_other h hk, List.mem_cons, hk, false_or]

/-- In whatever order the four lanes run, each gets its `QRF` (R155). -/
theorem quadAt_onLanes_of_perm {order : List (Fin 4)} (hperm : order.Perm [0, 1, 2, 3]) (k : Fin 4) (x : Words) :
    quadAt (lane k) (onLanes lane order x) = qrf (quadAt (lane k) x) := by
  have hall : ∀ k : Fin 4, k ∈ [(0 : Fin 4), 1, 2, 3] := by decide
  rw [quadAt_onLanes h (hperm.nodup_iff.2 (by decide)), if_pos (hperm.mem_iff.2 (hall k))]

theorem onLanes_eq_of_perm {order : List (Fin 4)} (hperm : order.Perm [0, 1, 2, 3]) (x : Words) :
    onLanes lane order x = onLanes lane [0, 1, 2, 3] x :=
  words_ext_of_quadAt h fun k => by rw [quadAt_onLanes_of_perm h hperm, quadAt_onLanes_of_perm h (.refl _)]

/-- The four lanes of the all-zero bank stay zero. -/
theorem onLanes_zeroWords : onLanes lane [0, 1, 2, 3] zeroWords = zeroWords :=
  words_ext_of_quadAt h fun k => by
    have hzero : quadAt (lane k) zeroWords = ⟨0, 0, 0, 0⟩ := by simp [quadAt, zeroWords]
    rw [quadAt_onLanes_of_perm h (.refl _), hzero]
    decide

end

/-! ### The two rounds -/

theorem colRound_eq_onLanes (x : Words) : colRound x = onLanes colLane [0, 1, 2, 3] x := rfl

theorem diagRound_eq_onLanes (x : Words) : diagRound x = onLanes diagLane [0, 1, 2, 3] x := rfl

theorem quadAt_colRound (x : Words) (k : Fin 4) : quadAt (colLane k) (colRound x) = qrf (quadAt (colLane k) x) :=
  quadAt_onLanes_of_perm colLane_partitionsRegisters (.refl _) k x

theorem quadAt_diagRound (x : Words) (k : Fin 4) : quadAt (diagLane k) (diagRound x) = qrf (quadAt (diagLane k) x) :=
  quadAt_onLanes_of_perm diagLane_partitionsRegisters (.refl _) k x

@[simp] theorem colRound_zeroWords : colRound zeroWords = zeroWords := by
  rw [colRound_eq_onLanes, onLanes_zeroWords colLane_partitionsRegisters]

@[simp] theorem diagRound_zeroWords : diagRound zeroWords = zeroWords := by
  rw [diagRound_eq_onLanes, onLanes_zeroWords diagLane_partitionsRegisters]

/-- Settles O12: each round gives every lane its `QRF`; the index sets and the examples are evaluated. -/
theorem roundsApplyTheQuarterRoundToTheirLanes : Obligations.RoundsApplyTheQuarterRoundToTheirLanes := by
  refine ⟨by decide, by decide, quadAt_colRound, quadAt_diagRound, colRound_zeroWords, diagRound_zeroWords, ?_,
    fun x hx => ?_⟩
  · rw [quadAt_colRound]
    decide
  · have hnodup : (laneIndices ⟨2, 7, 8, 13⟩).Nodup := by decide
    refine ⟨(quadAt_qrLane hnodup x).trans ?_, fun k hk => getElem_qrLane_of_notMem hnodup x hk⟩
    rw [hx]
    decide

/-! ### Rotating the rows -/

/-- Row `row` is rotated left by `row` positions (R155). -/
theorem wordOf_rotateRows (x : Words) {row col : Nat} (hrow : row < 4) (hcol : col < 4) :
    wordOf (rotateRows x) (4 * row + col) = wordOf x (4 * row + (col + row) % 4) := by
  have hdiv : (4 * row + col) / 4 = row := by omega
  have hmod : (4 * row + col + row) % 4 = (col + row) % 4 := by omega
  have hi : 4 * row + col < 16 := by omega
  have hj : 4 * row + (col + row) % 4 < 16 := by omega
  simp [wordOf, rotateRows, hdiv, hmod, hi, hj]

/-- The columns of the rotated matrix are the diagonals of the matrix (R155). -/
theorem quadAt_colLane_rotateRows (k : Fin 4) (x : Words) :
    quadAt (colLane k) (rotateRows x) = quadAt (diagLane k) x := by
  fin_cases k <;> simp [quadAt, colLane, diagLane, rotateRows]

theorem rotateRows_injective : Function.Injective rotateRows := fun x y hxy =>
  words_ext_of_quadAt diagLane_partitionsRegisters fun k => by
    rw [← quadAt_colLane_rotateRows, hxy, quadAt_colLane_rotateRows]

/-- Four rotations bring every row back. -/
theorem rotateRows_four (x : Words) : rotateRows (rotateRows (rotateRows (rotateRows x))) = x := by
  apply Vector.ext
  intro i hi
  interval_cases i <;> simp [rotateRows]

theorem rotateRows_bijective : Function.Bijective rotateRows :=
  ⟨rotateRows_injective, fun x => ⟨_, rotateRows_four x⟩⟩

/-- A diagonal round is a column round on the rotated rows (R155). -/
theorem rotateRows_diagRound (x : Words) : rotateRows (diagRound x) = colRound (rotateRows x) :=
  words_ext_of_quadAt colLane_partitionsRegisters fun k =>
    calc quadAt (colLane k) (rotateRows (diagRound x))
      _ = qrf (quadAt (diagLane k) x) := by rw [quadAt_colLane_rotateRows, quadAt_diagRound]
      _ = quadAt (colLane k) (colRound (rotateRows x)) := by rw [quadAt_colRound, quadAt_colLane_rotateRows]

/-- Settles O13: the lanes partition the registers, so a round is determined lane by lane, in any order, and the rotation
carries the diagonals to the columns. -/
theorem lanesOfARoundAreIndependent : Obligations.LanesOfARoundAreIndependent := by
  refine ⟨by decide, ?_, fun x order hperm => ⟨?_, ?_⟩, fun x _ _ hrow hcol => wordOf_rotateRows x hrow hcol,
    rotateRows_bijective, rotateRows_diagRound⟩
  · simp only [List.forall_mem_cons]
    exact ⟨colLane_partitionsRegisters.existsUnique_lane, diagLane_partitionsRegisters.existsUnique_lane, by simp⟩
  · exact onLanes_eq_of_perm colLane_partitionsRegisters hperm x
  · exact onLanes_eq_of_perm diagLane_partitionsRegisters hperm x

end Sys2Proof.Proofs
end

section
/-! PROOFS. The permutation as the iterated double round (R157). -/

namespace Sys2Proof.Proofs

open Sys2Proof Sys2Proof.Machine Sys2Proof.Claims

theorem perm_eq_iterate (dr : Nat) (x : Words) : perm dr x = dblRound^[dr] x := by
  induction dr generalizing x with
  | zero => rfl
  | succ dr ih => rw [perm, ih, Function.iterate_succ_apply]

theorem permF_eq_iterate (x : Words) : permF x = dblRound^[10] x := perm_eq_iterate 10 x

theorem dblRound_zeroWords : dblRound zeroWords = zeroWords := by
  rw [dblRound, colRound_zeroWords, diagRound_zeroWords]

theorem perm_zeroWords (dr : Nat) : perm dr zeroWords = zeroWords := by
  rw [perm_eq_iterate, Function.iterate_fixed dblRound_zeroWords]

/-- Settles O14: `PERM` is the iterate of the double round, of which the all-zero bank is a fixed point. -/
theorem permutationIteratesTheDoubleRound : Obligations.PermutationIteratesTheDoubleRound :=
  ⟨fun _ => rfl, perm_eq_iterate, permF_eq_iterate, perm_zeroWords, fun _ => rfl⟩

end Sys2Proof.Proofs
end

section
/-! PROOFS. The layout of the block transform: the words a block is assembled from and the bytes it is stored as (R180, R184). -/

namespace Sys2Proof.Proofs

open Sys2Proof Sys2Proof.Machine Sys2Proof.Claims

theorem wordOf_eq_getElem (x : Words) {i : Nat} (h : i < 16) : wordOf x i = x[i] := by
  simp [wordOf, h]

/-- Word `i` of two arrays in a row, the first made of whole words (R15). -/
theorem wordAt_append {n m k : Nat} (hn : n = 4 * k) (a : Bytes n) (b : Bytes m) (i : Nat) :
    wordAt (a ++ b) i = if i < k then wordAt a i else wordAt b (i - k) := by
  subst hn
  simp only [wordAt, byteAt_append]
  split
  case isTrue hik =>
    rw [if_pos (by omega), if_pos (by omega), if_pos (by omega), if_pos (by omega)]
  case isFalse hik =>
    rw [if_neg (by omega), if_neg (by omega), if_neg (by omega), if_neg (by omega), Nat.mul_sub,
      Nat.sub_add_comm (by omega), Nat.sub_add_comm (by omega), Nat.sub_add_comm (by omega)]

/-- The matrix is the words of the concatenation (R180). -/
theorem wordOf_assemble (key0 key1 nonce constant : Bytes 16) {i : Nat} (h : i < 16) :
    wordOf (assemble key0 key1 nonce constant) i = wordAt (constant ++ key0 ++ key1 ++ nonce) i := by
  rw [wordAt_append (k := 12) rfl, wordAt_append (k := 8) rfl, wordAt_append (k := 4) rfl]
  interval_cases i <;> rfl

/-- Settles O16: row by row each word stands where `assemble` lists it, and the rows are the arrays of the concatenation. -/
theorem assemblyLaysOutTheMatrix : Obligations.AssemblyLaysOutTheMatrix := by
  refine ⟨fun key0 key1 nonce constant i hi => ?_, fun _ _ _ _ _ => wordOf_assemble _ _ _ _, fun _ _ => ⟨rfl, rfl⟩,
    by decide⟩
  interval_cases i <;> exact ⟨rfl, rfl, rfl, rfl⟩

/-- Byte `4i + k` of the stored block is byte `k` of word `i` (R184). -/
theorem byteAt_serialize (x : Words) {i k : Nat} (hi : i < 16) (hk : k < 4) :
    byteAt (serialize x) (4 * i + k) = byteAt (st32 (wordOf x i)) k := by
  have hdiv : (4 * i + k) / 4 = i := by omega
  have hmod : (4 * i + k) % 4 = k := by omega
  rw [serialize, byteAt_ofFn _ (by omega)]
  simp only [hdiv, hmod, wordOf_eq_getElem x hi]

theorem slice_serialize (x : Words) {i : Nat} (hi : i < 16) : slice (serialize x) (4 * i) 4 = st32 (wordOf x i) :=
  bytes_ext fun k hk => by rw [byteAt_slice _ _ hk, byteAt_serialize x hi hk]

/-- Word `i` of the stored block is word `i` of the bank (R184). -/
theorem wordAt_serialize (x : Words) {i : Nat} (hi : i < 16) : wordAt (serialize x) i = wordOf x i := by
  have hfirst : byteAt (serialize x) (4 * i) = byteAt (st32 (wordOf x i)) 0 := byteAt_serialize x hi (k := 0) (by omega)
  rw [wordAt, hfirst, byteAt_serialize x hi (k := 1) (by omega), byteAt_serialize x hi (k := 2) (by omega),
    byteAt_serialize x hi (k := 3) (by omega), le32_st32]

/-- Settles O17: each stored byte is a byte of `ST32`, whose values and inverse are known; the example is one stored word. -/
theorem serializationIsLittleEndian : Obligations.SerializationIsLittleEndian := by
  refine ⟨fun x i k hi hk => ?_, fun x i hi => wordAt_serialize x hi, fun x hx => ?_⟩
  · rw [byteAt_serialize x hi hk, toNat_byteAt_st32 _ hk]
  · rw [slice_serialize x (i := 0) (by omega), hx]
    decide

end Sys2Proof.Proofs
end

section
/-! PROOFS. The block function word by word, and its two known blocks (R185). -/

namespace Sys2Proof.Proofs

open Sys2Proof Sys2Proof.Machine Sys2Proof.Claims

theorem wordOf_feedForward (j x : Words) {i : Nat} (hi : i < 16) :
    wordOf (feedForward j x) i = add32 (wordOf x i) (wordOf j i) := by
  simp [wordOf, feedForward, hi]

/-- The formula of R185. -/
theorem wordAt_blockFn (key0 key1 nonce constant : Bytes 16) {i : Nat} (hi : i < 16) :
    wordAt (blockFn key0 key1 nonce constant) i =
      add32 (wordOf (permF (assemble key0 key1 nonce constant)) i) (wordOf (assemble key0 key1 nonce constant) i) := by
  rw [blockFn, wordAt_serialize _ hi, wordOf_feedForward _ _ hi]

/-- The permutation of zero is zero and zero plus zero is zero (R185). -/
theorem blockFn_zero : blockFn (zeroBytes 16) (zeroBytes 16) (zeroBytes 16) (zeroBytes 16) = zeroBytes 64 := by
  have hassemble : assemble (zeroBytes 16) (zeroBytes 16) (zeroBytes 16) (zeroBytes 16) = zeroWords := by decide
  have hpermF : permF zeroWords = zeroWords := perm_zeroWords _
  have hfeed : feedForward zeroWords zeroWords = zeroWords := by decide
  have hserialize : serialize zeroWords = zeroBytes 64 := by decide
  rw [blockFn, hassemble, hpermF, hfeed, hserialize]

/-- Settles O18: the formula for every input and the zero block by the fixed point of the permutation; the known answer is
evaluated by the kernel. -/
theorem blockFunctionFormula : Obligations.BlockFunctionFormula :=
  ⟨fun key0 key1 nonce constant _ hi => wordAt_blockFn key0 key1 nonce constant hi, blockFn_zero, by decide +kernel⟩

end Sys2Proof.Proofs
end

section
/-! PROOFS. The command BLOCK and its relation to NEXT (R189, R190). -/

namespace Sys2Proof.Proofs

open Sys2Proof Sys2Proof.Machine Sys2Proof.Claims

/-- No check of BLOCK can fail (R189). -/
theorem exec_block (raw : Bool) (s : State) :
    exec (.block raw) s = .next (complete (releaseWork { s with out := stagedBlock raw s })) :=
  exec_of_checksPass rfl

/-- With a session NEXT puts the block of the current nonce into `OUT` (R236). -/
theorem exec_next_of_valid {s : State} (h : s.valid = true) :
    exec .next s = .next (complete { afterProduce s with out := producedBlock s }) :=
  exec_of_checksPass (by rw [commandError, if_pos h])

/-- A word with `OP = 5` that is neither word of BLOCK is illegal (R105). -/
theorem decode_error_of_block_fields {w : Word} (hop : fieldOp w = 0x05)
    (h : (fieldA w).toNat / 2 ≠ 0 ∨ fieldB w ≠ 0 ∨ fieldRsv w ≠ 0) : ∃ e, decode w = .error e := by
  have hval : (fieldOp w).toNat = 5 := by rw [hop]; rfl
  rw [decode_error_iff_fields]
  tauto

/-- Settles O20: `exec_block` gives the next state, and what `releaseWork` changes is not architectural; near-miss words are
illegal. -/
theorem blockCommandRunsTheTransform : Obligations.BlockCommandRunsTheTransform := by
  refine ⟨fun raw s => ⟨_, exec_block raw s, rfl⟩, by decide, by decide, fun w s hop h => ?_⟩
  obtain ⟨e, he⟩ := decode_error_of_block_fields hop h
  exact runCommand_of_decode_error s he

/-- Staged as `KEYIN`, the two halves of a session key are the first two operands of BLOCK again (R190). -/
theorem stagedBlock_of_sessionOperands (s : State) :
    stagedBlock false { s with keyin := s.key0 ++ s.key1, noncein := s.nonce, constin := constOf s.k256 } =
      producedBlock s := by
  have hfirst : slice (s.key0 ++ s.key1) 0 16 = s.key0 := slice_append_left _ _
  have hsecond : slice (s.key0 ++ s.key1) 16 16 = s.key1 := slice_append_right _ _
  simp [stagedBlock, keyFirstHalf, keySecondHalf, producedBlock, hfirst, hsecond]

/-- Settles O21: both commands complete, and the block of the staged operands is the session's. -/
theorem nextEqualsBlockOnTheSessionOperands : Obligations.NextEqualsBlockOnTheSessionOperands :=
  fun s hvalid => ⟨_, _, exec_next_of_valid hvalid, exec_block false _, (stagedBlock_of_sessionOperands s).symm, rfl⟩

end Sys2Proof.Proofs
end

section
/-! PROOFS. The initialisation commands: their next states, their words, and the session state machine (R200, R206, R207,
R209). -/

namespace Sys2Proof.Proofs

open Sys2Proof Sys2Proof.Machine Sys2Proof.Claims

/-! ### The outcomes of the two commands, by the checks of R204 and R205 -/

theorem exec_initStd_of_keyLength {klen : Nat} (hk : klen = 16 ∨ klen = 32) (s : State) :
    exec (.initStd klen) s = .next (complete (openSession (standardNonce s) 8 (keySetup klen s))) :=
  exec_of_checksPass (if_pos ((keyLengthOk_iff klen).2 hk))

theorem exec_initStd_of_not_keyLength {klen : Nat} (hk : ¬ (klen = 16 ∨ klen = 32)) (s : State) :
    exec (.initStd klen) s = .next (raise .keylen s) :=
  exec_of_commandError (if_neg (mt (keyLengthOk_iff klen).1 hk))

theorem exec_initCustom_of_lengths {klen clen : Nat} (hk : klen = 16 ∨ klen = 32) (hc : 1 ≤ clen ∧ clen ≤ 16)
    (s : State) :
    exec (.initCustom klen clen) s = .next (complete (openSession s.noncein clen (keySetup klen s))) := by
  apply exec_of_checksPass
  simp [commandError, (keyLengthOk_iff klen).2 hk, (counterLengthOk_iff clen).2 hc]

theorem exec_initCustom_of_not_keyLength {klen : Nat} (hk : ¬ (klen = 16 ∨ klen = 32)) (clen : Nat) (s : State) :
    exec (.initCustom klen clen) s = .next (raise .keylen s) := by
  rw [← keyLengthOk_iff] at hk
  apply exec_of_commandError
  simp [commandError, hk]

theorem exec_initCustom_of_not_counterLength {klen clen : Nat} (hk : klen = 16 ∨ klen = 32)
    (hc : ¬ (1 ≤ clen ∧ clen ≤ 16)) (s : State) :
    exec (.initCustom klen clen) s = .next (raise .clen s) := by
  rw [← counterLengthOk_iff] at hc
  apply exec_of_commandError
  simp [commandError, (keyLengthOk_iff klen).2 hk, hc]

/-- An initialisation error ends the session and leaves every register but the flags (R277). -/
theorem raise_of_endsSession {e : ErrCode} (he : e.endsSession = true) (s : State) :
    raise e s = { s with err := e.code, fault := true, valid := false, phase := .idle } := by
  simp [raise, he]

theorem raise_valid_of_endsSession {e : ErrCode} (he : e.endsSession = true) (s : State) :
    (raise e s).valid = false := by
  rw [raise_of_endsSession he]

/-- An error of another command leaves the session state (R277). -/
theorem raise_valid_of_not_endsSession {e : ErrCode} (he : e.endsSession = false) (s : State) :
    (raise e s).valid = s.valid := by
  simp [he]

/-! ### The nonce of standard mode -/

/-- Bytes 0..7 are zero, bytes 8..15 the staged nonce (R206). -/
theorem byteAt_standardNonce (s : State) {i : Nat} (hi : i < 8) :
    byteAt (standardNonce s) i = 0 ∧ byteAt (standardNonce s) (8 + i) = byteAt s.noncein i := by
  constructor
  · rw [standardNonce, byteAt_append, if_pos hi, byteAt_zeroBytes]
  · rw [standardNonce, byteAt_append, if_neg (by omega), Nat.add_sub_cancel_left, byteAt_slice _ _ hi, Nat.zero_add]

/-- Words 2 and 3 are the words of the staged nonce (R206). -/
theorem wordAt_standardNonce (s : State) (i : Nat) :
    wordAt (standardNonce s) (2 + i) = wordAt (slice s.noncein 0 8) i := by
  rw [standardNonce, wordAt_append (k := 2) rfl, if_neg (by omega), Nat.add_sub_cancel_left]

/-! ### The words of the two commands -/

/-- A word as the weighted sum of its fields (R100). -/
theorem ofNat_eq_packFields {op a b : Nat} (hop : op < 256) (ha : a < 256) (hb : b < 256) :
    BitVec.ofNat 32 (op + 256 * a + 65536 * b) =
      packFields (BitVec.ofNat 8 op) (BitVec.ofNat 8 a) (BitVec.ofNat 8 b) := by
  have hrsv : (0 : Byte).toNat = 0 := rfl
  apply BitVec.eq_of_toNat_eq
  rw [packFields_eq_le32, toNat_le32, hrsv]
  simp only [BitVec.toNat_ofNat]
  omega

theorem decode_initStd_word {klen : Nat} (hk : klen < 256) :
    decode (BitVec.ofNat 32 (0x01 + 256 * klen)) = .ok (.initStd klen) := by
  have hword : BitVec.ofNat 32 (0x01 + 256 * klen) = encode (.initStd klen) :=
    ofNat_eq_packFields (op := 0x01) (b := 0) (by omega) hk (by omega)
  rw [hword]
  exact decode_encode ((fitsField_iff klen).2 hk)

theorem decode_initCustom_word {klen clen : Nat} (hk : klen < 256) (hc : clen < 256) :
    decode (BitVec.ofNat 32 (0x02 + 256 * klen + 65536 * clen)) = .ok (.initCustom klen clen) := by
  have hword : BitVec.ofNat 32 (0x02 + 256 * klen + 65536 * clen) = encode (.initCustom klen clen) :=
    ofNat_eq_packFields (by omega) hk hc
  rw [hword]
  exact decode_encode (Bool.and_eq_true_iff.2 ⟨(fitsField_iff klen).2 hk, (fitsField_iff clen).2 hc⟩)

/-- A word with `OP = 1` that is no word of INIT_STD is illegal (R105). -/
theorem decode_error_of_initStd_fields {w : Word} (hop : fieldOp w = 0x01) (h : fieldB w ≠ 0 ∨ fieldRsv w ≠ 0) :
    ∃ e, decode w = .error e := by
  have hval : (fieldOp w).toNat = 1 := by rw [hop]; rfl
  rw [decode_error_iff_fields]
  tauto

/-! ### The next states -/

/-- Settles O22: the outcome by the key length; the bytes, words and examples follow from the standard nonce, the decoder's
clauses from the encoding and the illegal words. -/
theorem initStdNextState : Obligations.InitStdNextState := by
  refine ⟨fun klen s hk => exec_initStd_of_keyLength hk s, fun klen s hk => ?_, fun klen s t hk h i hi => ?_,
    fun t h => ?_, fun s t hnonce h => ?_, fun klen hk => decode_initStd_word hk, fun w s hop h => ?_⟩
  · rw [exec_initStd_of_not_keyLength hk, raise_of_endsSession rfl]
    rfl
  · rw [exec_initStd_of_keyLength hk] at h
    injection h with h
    rw [← h]
    exact byteAt_standardNonce s hi
  · rw [exec_initStd_of_keyLength (.inl rfl)] at h
    injection h with h
    rw [← h]
    decide
  · rw [exec_initStd_of_keyLength (.inl rfl)] at h
    injection h with h
    have hwords (i : Nat) : readReg .noncecur (2 + i) t = wordAt (slice s.noncein 0 8) i := by
      rw [← h]
      exact wordAt_standardNonce s i
    rw [hwords 0, hwords 1, hnonce]
    decide
  · obtain ⟨e, he⟩ := decode_error_of_initStd_fields hop h
    exact runCommand_of_decode_error s he

/-- A session of INIT_CUSTOM holds the requested counter length: up to 16 it fits the five bits of `clen` (R33, R207). -/
theorem clen_of_exec_initCustom {klen clen : Nat} {s t : State} (hc : clen ≤ 16)
    (h : exec (.initCustom klen clen) s = .next t) (hvalid : t.valid = true) : t.clen.toNat = clen := by
  obtain ⟨-, -, rfl⟩ | ⟨-, -, rfl⟩ | ⟨-, rfl⟩ := execInitCustom_cases h
  · rw [complete_clen, openSession_clen, BitVec.toNat_ofNat]
    omega
  · cases (raise_valid_of_endsSession rfl s).symm.trans hvalid
  · cases (raise_valid_of_endsSession rfl s).symm.trans hvalid

/-- Settles O23: the outcome by the two length checks, in their order; the words by the encoding, the near misses by the
illegal words. -/
theorem initCustomNextState : Obligations.InitCustomNextState := by
  refine ⟨fun klen clen s hk hlo hhi => exec_initCustom_of_lengths hk ⟨hlo, hhi⟩ s, fun klen clen s hk => ?_,
    fun klen clen s hk hc => ?_, fun klen clen s t hc h hvalid => clen_of_exec_initCustom hc h hvalid,
    fun klen hk clen hc => decode_initCustom_word hk hc, fun w s _ hrsv => ?_⟩
  · rw [exec_initCustom_of_not_keyLength hk, raise_of_endsSession rfl]
    rfl
  · rw [exec_initCustom_of_not_counterLength hk (by omega), raise_of_endsSession rfl]
    rfl
  · obtain ⟨e, he⟩ := (decode_error_iff_fields w).2 (.inl hrsv)
    exact runCommand_of_decode_error s he

/-- Settles O24: with an accepted key length both commands open the session with the standard nonce and `clen = 8`; with any
other both raise the same error. -/
theorem initModesAreEquivalent : Obligations.InitModesAreEquivalent := by
  intro klen s
  by_cases hk : klen = 16 ∨ klen = 32
  · exact ⟨_, exec_initStd_of_keyLength hk s, exec_initCustom_of_lengths hk (by omega) _⟩
  · exact ⟨_, exec_initStd_of_not_keyLength hk s, exec_initCustom_of_not_keyLength hk 8 _⟩

/-! ### The session state machine -/

/-- Settles O25: row by row of the table, the cases of the command's next state. -/
theorem sessionStateMachine : Obligations.SessionStateMachine := by
  refine ⟨fun klen s t h => ?_, fun klen clen s t h => ?_, fun s t h => ?_, fun lenIn lenOut s t h => ?_,
    fun raw s t h => ?_, fun w e s t hd h => ?_, fun s t h => ?_, rfl⟩
  · obtain ⟨-, rfl⟩ | ⟨-, rfl⟩ := execInitStd_cases h
    · exact .inl ⟨rfl, rfl⟩
    · exact .inr ⟨rfl, raise_valid_of_endsSession rfl s⟩
  · obtain ⟨-, -, rfl⟩ | ⟨-, -, rfl⟩ | ⟨-, rfl⟩ := execInitCustom_cases h
    · exact .inl ⟨rfl, rfl⟩
    · exact .inr ⟨.inr rfl, raise_valid_of_endsSession rfl s⟩
    · exact .inr ⟨.inl rfl, raise_valid_of_endsSession rfl s⟩
  · obtain ⟨hv, rfl⟩ | ⟨hv, rfl⟩ := execNext_cases h
    · exact ⟨rfl, .inl ⟨rfl, hv⟩⟩
    · exact ⟨raise_valid_of_not_endsSession rfl s, .inr ⟨rfl, hv⟩⟩
  · obtain ⟨hv, -, -, rfl⟩ | ⟨hv, -, -, rfl⟩ | ⟨hv, -, rfl⟩ | ⟨hv, rfl⟩ := execXor_cases h
    · exact ⟨xorLoop_valid lenIn 0 s, .inl ⟨.inl rfl, hv⟩⟩
    · exact ⟨raise_valid_of_not_endsSession rfl s, .inl ⟨.inr (.inr rfl), hv⟩⟩
    · exact ⟨raise_valid_of_not_endsSession rfl s, .inl ⟨.inr (.inl rfl), hv⟩⟩
    · exact ⟨raise_valid_of_not_endsSession rfl s, .inr ⟨rfl, hv⟩⟩
  · obtain rfl := execBlock_cases h
    exact ⟨rfl, rfl⟩
  · rw [runCommand_of_decode_error s hd] at h
    injection h with h
    rw [← h]
    exact ⟨rfl, raise_valid_of_not_endsSession rfl s⟩
  · injection h with h
    rw [← h]
    rfl

end Sys2Proof.Proofs
end

section
/-! PROOFS. The increment of the counter region: the carry chain byte by byte, and the same as addition (R230 to R233). -/

namespace Sys2Proof.Proofs

open Sys2Proof Sys2Proof.Machine Sys2Proof.Claims

/-! ### The carry chain -/

/-- A byte wraps exactly at 0xFF (R230). -/
theorem byte_add_one_eq_zero_iff (b : Byte) : b + 1 = 0 ↔ b = 0xFF := by
  revert b
  decide

theorem toNat_byte_add_one {b : Byte} (h : b ≠ 0xFF) : (b + 1).toNat = b.toNat + 1 := by
  bv_omega

theorem incrFrom_succ_of_wrap {n : Bytes 16} {lo : Nat} (h : byteAt n lo = 0xFF) (k : Nat) :
    incrFrom n lo (k + 1) = incrFrom (putByte n lo 0) (lo + 1) k := by
  have hzero := (byte_add_one_eq_zero_iff _).2 h
  simp only [incrFrom, hzero, if_true]

theorem incrFrom_succ_of_not_wrap {n : Bytes 16} {lo : Nat} (h : byteAt n lo ≠ 0xFF) (k : Nat) :
    incrFrom n lo (k + 1) = putByte n lo (byteAt n lo + 1) :=
  if_neg (mt (byte_add_one_eq_zero_iff _).1 h)

/-- The loop of `INCR` adds 1 to the bytes the carry reaches, those above `0xFF` bytes only, and to no other (R230). -/
theorem byteAt_incrFrom (n : Bytes 16) (lo k : Nat) {i : Nat} (hi : i < 16) :
    byteAt (incrFrom n lo k) i =
      if lo ≤ i ∧ i < lo + k ∧ ∀ j < i, lo ≤ j → byteAt n j = 0xFF then byteAt n i + 1 else byteAt n i := by
  induction k generalizing n lo with
  | zero => rw [if_neg (by omega)]; rfl
  | succ k ih =>
    by_cases hwrap : byteAt n lo = 0xFF
    · rw [incrFrom_succ_of_wrap hwrap, ih]
      obtain rfl | hlo := eq_or_ne i lo
      · rw [if_neg (by omega), byteAt_putByte_same n hi, if_pos ⟨by omega, by omega, fun j _ _ => by omega⟩,
          (byte_add_one_eq_zero_iff _).2 hwrap]
      rw [byteAt_putByte_other n hlo]
      refine if_congr ⟨fun ⟨hle, hlt, hcarry⟩ => ⟨by omega, by omega, fun j hj hloj => ?_⟩,
        fun ⟨hle, hlt, hcarry⟩ => ⟨by omega, by omega, fun j hj hloj => ?_⟩⟩ rfl rfl
      · obtain rfl | hne := eq_or_ne j lo
        · exact hwrap
        · rw [← byteAt_putByte_other n hne 0, hcarry j hj (by omega)]
      · rw [byteAt_putByte_other n (by omega), hcarry j hj (by omega)]
    · rw [incrFrom_succ_of_not_wrap hwrap]
      obtain rfl | hlo := eq_or_ne i lo
      · rw [byteAt_putByte_same n hi, if_pos ⟨by omega, by omega, fun j _ _ => by omega⟩]
      · rw [byteAt_putByte_other n hlo, if_neg]
        exact fun ⟨hle, _, hcarry⟩ => hwrap (hcarry lo (by omega) le_rfl)

/-- The carry of `INCR` reaches byte `i`: all bytes below are 0xFF (R230). -/
abbrev CarryReaches (n : Bytes 16) (i : Nat) : Prop := ∀ j < i, byteAt n j = 0xFF

theorem carryReaches_succ (n : Bytes 16) (i : Nat) :
    CarryReaches n (i + 1) ↔ CarryReaches n i ∧ byteAt n i = 0xFF :=
  Nat.forall_lt_succ_right

/-- Every byte of the counter region after an increment. -/
theorem byteAt_incr (n : Bytes 16) {clen i : Nat} (hi : i < clen) (hclen : clen ≤ 16) :
    byteAt (incr n clen) i = if CarryReaches n i then byteAt n i + 1 else byteAt n i := by
  simp [incr, byteAt_incrFrom n 0 clen (by omega : i < 16), hi, CarryReaches]

/-- The carry never leaves the counter region (R233). -/
theorem byteAt_incr_outside (n : Bytes 16) {clen i : Nat} (hi : clen ≤ i) :
    byteAt (incr n clen) i = byteAt n i := by
  by_cases hin : i < 16
  · rw [incr, byteAt_incrFrom n 0 clen hin, if_neg (by omega)]
  · rw [byteAt_outside _ (by omega), byteAt_outside _ (by omega)]

/-- A region byte of 0xFF that the carry reaches wraps to zero (R232). -/
theorem byteAt_incr_of_wrap {n : Bytes 16} {clen i : Nat} (hi : i < clen) (hclen : clen ≤ 16)
    (hcarry : CarryReaches n (i + 1)) : byteAt (incr n clen) i = 0 := by
  obtain ⟨hbelow, hbyte⟩ := (carryReaches_succ n i).1 hcarry
  rw [byteAt_incr n hi hclen, if_pos hbelow, (byte_add_one_eq_zero_iff _).2 hbyte]

/-- Above a byte that does not wrap nothing changes (R230). -/
theorem byteAt_incr_above {n : Bytes 16} {clen m i : Nat} (hclen : clen ≤ 16) (hm : byteAt n m ≠ 0xFF) (hi : m < i) :
    byteAt (incr n clen) i = byteAt n i := by
  by_cases hin : i < clen
  · rw [byteAt_incr n hin hclen, if_neg fun hcarry => hm (hcarry m hi)]
  · exact byteAt_incr_outside n (by omega)

/-- Settles O30: each byte by whether the carry reaches it; NEXT completes whatever the counter is. -/
theorem counterIncrementByBytes : Obligations.CounterIncrementByBytes := by
  refine ⟨fun n clen m hm hclen hff hne => ⟨fun i hi => ?_, ?_, fun i hi => byteAt_incr_above hclen hne hi⟩,
    fun n clen hclen hff i hi => ?_, fun n clen i hi => byteAt_incr_outside n hi,
    fun s hvalid _ => ⟨_, exec_next_of_valid hvalid, rfl, hvalid, rfl⟩⟩
  · exact byteAt_incr_of_wrap (by omega) hclen fun j hj => hff j (by omega)
  · rw [byteAt_incr n hm hclen, if_pos hff]
  · exact byteAt_incr_of_wrap hi hclen fun j hj => hff j (by omega)

/-! ### The counter integer -/

theorem counterValue_eq_sum (n : Bytes 16) (k : Nat) :
    counterValue n k = ∑ i ∈ Finset.range k, (byteAt n i).toNat * 256 ^ i := by
  induction k with
  | zero => rfl
  | succ k ih => rw [counterValue, Finset.sum_range_succ, ih]

theorem counterValue_lt (n : Bytes 16) (k : Nat) : counterValue n k < 256 ^ k := by
  induction k with
  | zero => exact Nat.one_pos
  | succ k ih =>
    have hbyte : (byteAt n k).toNat * 256 ^ k ≤ 255 * 256 ^ k :=
      Nat.mul_le_mul_right _ (Nat.le_of_lt_succ (byteAt n k).isLt)
    rw [counterValue, pow_succ]
    omega

/-- The low `k` bytes gain 1, less the carry out of them (R231). -/
theorem counterValue_incr_add_carry (n : Bytes 16) {clen k : Nat} (hk : k ≤ clen) (hclen : clen ≤ 16) :
    counterValue (incr n clen) k + (if CarryReaches n k then 256 ^ k else 0) = counterValue n k + 1 := by
  induction k with
  | zero => simp [counterValue]
  | succ k ih =>
    have ih := ih (by omega)
    rw [counterValue, counterValue, byteAt_incr n hk hclen]
    by_cases hcarry : CarryReaches n k
    · rw [if_pos hcarry] at ih ⊢
      by_cases hwrap : byteAt n k = 0xFF
      · have hzero : (0xFF + 1 : Byte).toNat = 0 := rfl
        have hmax : (0xFF : Byte).toNat = 255 := rfl
        rw [if_pos ((carryReaches_succ n k).2 ⟨hcarry, hwrap⟩), hwrap, hzero, hmax, pow_succ]
        omega
      · rw [if_neg fun h => hwrap ((carryReaches_succ n k).1 h).2, toNat_byte_add_one hwrap, Nat.succ_mul]
        omega
    · rw [if_neg hcarry] at ih ⊢
      rw [if_neg fun h => hcarry ((carryReaches_succ n k).1 h).1]
      omega

/-- `INCR` is addition of 1 modulo `256^clen` on the counter integer (R231): the carry out of the region is discarded. -/
theorem counterValue_incr (n : Bytes 16) {clen : Nat} (hclen : clen ≤ 16) :
    counterValue (incr n clen) clen = (counterValue n clen + 1) % 256 ^ clen := by
  have hlt := counterValue_lt (incr n clen) clen
  rw [← counterValue_incr_add_carry n le_rfl hclen]
  split
  · rw [Nat.add_mod_right, Nat.mod_eq_of_lt hlt]
  · rw [Nat.add_zero, Nat.mod_eq_of_lt hlt]

/-- With `clen = 8` the counter is state words 12 and 13 (R231). -/
theorem counterValue_eight (key0 key1 n constant : Bytes 16) : counterValue n 8 =
    (wordOf (assemble key0 key1 n constant) 12).toNat + 2 ^ 32 * (wordOf (assemble key0 key1 n constant) 13).toNat := by
  have hlow : wordOf (assemble key0 key1 n constant) 12 = wordAt n 0 := rfl
  have hhigh : wordOf (assemble key0 key1 n constant) 13 = wordAt n 1 := rfl
  rw [hlow, hhigh, wordAt, wordAt, toNat_le32, toNat_le32]
  simp only [counterValue, Nat.mul_zero, Nat.mul_one, Nat.zero_add, Nat.reduceAdd]
  omega

/-- Settles O31: the increment as addition, the integer as a sum, and its two state words. -/
theorem counterIncrementIsModularAddition : Obligations.CounterIncrementIsModularAddition :=
  ⟨fun n _ _ hclen => counterValue_incr n hclen, counterValue_eq_sum, counterValue_eight⟩

end Sys2Proof.Proofs
end

section
/-! PROOFS. The period of the counter and of the block sequence (R239). -/

namespace Sys2Proof.Proofs

open Sys2Proof Sys2Proof.Machine Sys2Proof.Claims

/-- The counter integer is the little-endian expansion of the region's bytes, so it determines them (R231). -/
theorem byteAt_eq_of_counterValue_eq {a b : Bytes 16} {k : Nat} (h : counterValue a k = counterValue b k) :
    ∀ i < k, byteAt a i = byteAt b i := by
  induction k with
  | zero => exact fun i hi => absurd hi (Nat.not_lt_zero i)
  | succ k ih =>
    have hlow : counterValue a k = counterValue b k := by
      have hmod := congrArg (· % 256 ^ k) h
      simpa [counterValue, Nat.mod_eq_of_lt (counterValue_lt _ k)] using hmod
    have hhigh : byteAt a k = byteAt b k := by
      rw [counterValue, counterValue, hlow, Nat.add_left_cancel_iff] at h
      exact BitVec.eq_of_toNat_eq (Nat.eq_of_mul_eq_mul_right (pow_pos (by omega) k) h)
    exact Nat.forall_lt_succ_right.2 ⟨ih hlow, hhigh⟩

section
variable (n : Bytes 16) {clen : Nat}

theorem byteAt_iterate_incr_outside (m : Nat) {i : Nat} (hi : clen ≤ i) :
    byteAt ((fun k => incr k clen)^[m] n) i = byteAt n i := by
  induction m with
  | zero => rfl
  | succ m ih => rw [Function.iterate_succ_apply', byteAt_incr_outside _ hi, ih]

/-- `m` increments add `m` modulo `256^clen`. -/
theorem counterValue_iterate_incr (hclen : clen ≤ 16) (m : Nat) :
    counterValue ((fun k => incr k clen)^[m] n) clen = (counterValue n clen + m) % 256 ^ clen := by
  induction m with
  | zero => exact (Nat.mod_eq_of_lt (counterValue_lt n clen)).symm
  | succ m ih => rw [Function.iterate_succ_apply', counterValue_incr _ hclen, ih, Nat.mod_add_mod, Nat.add_assoc]

/-- The buffer returns exactly when the counter integer does: its other bytes never change (R239). -/
theorem iterate_incr_eq_self_iff (hclen : clen ≤ 16) (m : Nat) :
    (fun k => incr k clen)^[m] n = n ↔ 256 ^ clen ∣ m := by
  have hvalue := counterValue_iterate_incr n hclen m
  constructor
  · intro h
    rw [h] at hvalue
    have hmod : counterValue n clen + m ≡ counterValue n clen + 0 [MOD 256 ^ clen] :=
      hvalue.symm.trans (Nat.mod_eq_of_lt (counterValue_lt n clen)).symm
    exact Nat.modEq_zero_iff_dvd.1 hmod.add_left_cancel'
  · rintro ⟨c, rfl⟩
    rw [Nat.add_mul_mod_self_left, Nat.mod_eq_of_lt (counterValue_lt n clen)] at hvalue
    apply bytes_ext
    intro i _
    by_cases hin : i < clen
    · exact byteAt_eq_of_counterValue_eq hvalue i hin
    · exact byteAt_iterate_incr_outside n _ (by omega)

end

/-- The nonce repeats after `256^clen` blocks (R239). -/
theorem nonceAfter_add_period {s : State} (hclen : s.clen.toNat ≤ 16) (k : Nat) :
    nonceAfter s (k + 256 ^ s.clen.toNat) = nonceAfter s k := by
  rw [nonceAfter, Function.iterate_add_apply, (iterate_incr_eq_self_iff s.nonce hclen _).2 dvd_rfl, nonceAfter]

/-- Settles O32: the counter integer after `m` increments gives the period of the nonce, of which a block is a function. -/
theorem counterPeriod : Obligations.CounterPeriod :=
  ⟨fun n _ m _ hclen => iterate_incr_eq_self_iff n hclen m,
    fun s k _ hclen => by rw [blockSeq, nonceAfter_add_period hclen, blockSeq]⟩

end Sys2Proof.Proofs
end

section
/-! PROOFS. The command NEXT, once and `n` times in a row (R236, R238). -/

namespace Sys2Proof.Proofs

open Sys2Proof Sys2Proof.Machine Sys2Proof.Claims

/-- A word with `OP = 3` that is not the word of NEXT is illegal (R105). -/
theorem decode_error_of_next_fields {w : Word} (hop : fieldOp w = 0x03)
    (h : fieldA w ≠ 0 ∨ fieldB w ≠ 0 ∨ fieldRsv w ≠ 0) : ∃ e, decode w = .error e := by
  have hval : (fieldOp w).toNat = 3 := by rw [hop]; rfl
  rw [decode_error_iff_fields]
  tauto

/-- Without a session NEXT raises `ERR_NOSESSION`, which leaves `valid` as it is (R236, R277). -/
theorem exec_next_of_not_valid {s : State} (h : s.valid = false) :
    exec .next s = .next { s with err := 5, fault := true, phase := .idle } := by
  rw [exec_of_commandError (e := .nosession) (by simp [commandError, h])]
  simp [raise, ErrCode.code, ErrCode.endsSession]

/-- Settles O33: the outcome by `valid`, where what a block production releases is not architectural; near-miss words are
illegal. -/
theorem nextCommandProducesOneBlock : Obligations.NextCommandProducesOneBlock := by
  refine ⟨fun s hvalid => ⟨_, exec_next_of_valid hvalid, rfl⟩, fun s hvalid => exec_next_of_not_valid hvalid, by decide,
    fun w s hop h => ?_⟩
  obtain ⟨e, he⟩ := decode_error_of_next_fields hop h
  exact runCommand_of_decode_error s he

/-- The state a completed NEXT leaves (R236). -/
def afterNext (s : State) : State := complete { afterProduce s with out := producedBlock s }

/-- A step of a script of NEXT commands. -/
theorem step_nextScript {s : State} (h : s.valid = true) (n : Nat) :
    step (s.withScript (nextScript (n + 1))) = .next ((afterNext s).withScript (nextScript n)) := by
  have hdecode : decode (encode .next) = .ok .next := decode_encode rfl
  rw [step_of_commandWrite (w := encode .next) (rest := nextScript n) rfl, runCommand_of_decode_ok _ hdecode]
  exact exec_next_of_valid h

/-- After one NEXT the nonces of the session are those from the second on (R237). -/
theorem nonceAfter_afterNext (s : State) (n : Nat) : nonceAfter (afterNext s) n = nonceAfter s (n + 1) := rfl

/-- Settles O34, by induction on the script: the first NEXT leaves a session with the same keys and the nonce incremented
once. -/
theorem nthBlockFollowsNIncrements : Obligations.NthBlockFollowsNIncrements := by
  intro s n hvalid
  induction n generalizing s with
  | zero => exact ⟨_, run_succ_of_step (step_nextScript hvalid 0), rfl, rfl⟩
  | succ n ih =>
    obtain ⟨t, hrun, hout, hnonce⟩ := ih (afterNext s) hvalid
    rw [nonceAfter_afterNext] at hout hnonce
    exact ⟨t, (run_succ_of_step (step_nextScript hvalid _)).trans hrun, hout, hnonce⟩

end Sys2Proof.Proofs
end

section
/-! PROOFS. What the keystream depends on: two states with the same session give the same bytes and stay in the same session
(R251, R261). -/

namespace Sys2Proof.Proofs

open Sys2Proof Sys2Proof.Machine Sys2Proof.Claims

theorem sameSession_refl (s : State) : sameSession s s := ⟨rfl, rfl, rfl, rfl, rfl, rfl, rfl, rfl⟩

theorem sameSession_symm {s t : State} (h : sameSession s t) : sameSession t s := by
  obtain ⟨hkey0, hkey1, hnonce, hclen, hk256, hbuf, hrem, hvalid⟩ := h
  exact ⟨hkey0.symm, hkey1.symm, hnonce.symm, hclen.symm, hk256.symm, hbuf.symm, hrem.symm, hvalid.symm⟩

theorem sameSession_trans {s t u : State} (h : sameSession s t) (h' : sameSession t u) : sameSession s u := by
  obtain ⟨hkey0, hkey1, hnonce, hclen, hk256, hbuf, hrem, hvalid⟩ := h
  simpa only [sameSession, hkey0, hkey1, hnonce, hclen, hk256, hbuf, hrem, hvalid] using h'

theorem valid_eq_of_sameSession {s t : State} (h : sameSession s t) : s.valid = t.valid := by
  obtain ⟨-, -, -, -, -, -, -, hvalid⟩ := h
  exact hvalid

/-- `TAKEBYTE` reads and writes the session alone. -/
theorem sameSession_afterTake {s t : State} (h : sameSession s t) : sameSession (afterTake s) (afterTake t) := by
  obtain ⟨hkey0, hkey1, hnonce, hclen, hk256, hbuf, hrem, hvalid⟩ := h
  have hrefill : (refill s).rem = (refill t).rem := by rw [refill_rem, refill_rem, hrem]
  have htake : (afterTake s).rem = (afterTake t).rem := congrArg (· - 1) hrefill
  simp [sameSession, refill_nonce, refill_buf, producedBlock, *]

theorem sameSession_afterStream {s t : State} (h : sameSession s t) (n : Nat) :
    sameSession (afterStream n s) (afterStream n t) := by
  induction n with
  | zero => exact h
  | succ n ih =>
    rw [afterStream_succ, afterStream_succ]
    exact sameSession_afterTake ih

/-- The byte taken is the one before the bytes that are left (R251). -/
theorem takenByte_eq (s : State) : takenByte s = byteAt (afterTake s).buf (63 - (afterTake s).rem.toNat) := by
  have hrem : (refill s).rem.toNat = (afterTake s).rem.toNat + 1 := by
    rw [refill_rem, afterTake_rem_toNat]
    split
    · rfl
    · rename_i hne
      have hpos : s.rem.toNat ≠ 0 := BitVec.toNat_ne.1 hne
      omega
  rw [takenByte, afterTake_buf, hrem]
  congr 1
  omega

theorem takenByte_congr {s t : State} (h : sameSession s t) : takenByte s = takenByte t := by
  obtain ⟨-, -, -, -, -, hbuf, hrem, -⟩ := sameSession_afterTake h
  rw [takenByte_eq, takenByte_eq, hbuf, hrem]

theorem xorStream_congr {s t : State} (h : sameSession s t) (message : List Byte) :
    xorStream message s = xorStream message t := by
  induction message generalizing s t with
  | nil => rfl
  | cons m message ih => rw [xorStream, xorStream, takenByte_congr h, ih (sameSession_afterTake h)]

end Sys2Proof.Proofs
end

section
/-! PROOFS. The bookkeeping of keystream consumption: after `t` bytes, how many blocks were produced, and what the nonce,
`rem` and `buf` hold (R250 to R252). -/

namespace Sys2Proof.Proofs

open Sys2Proof Sys2Proof.Machine Sys2Proof.Claims

theorem blocksProduced_succ_of_rem_eq_zero {t : Nat} {s : State} (h : (afterStream t s).rem = 0) :
    blocksProduced (t + 1) s = blocksProduced t s + 1 := by
  simp [blocksProduced, List.range_succ, h]

theorem blocksProduced_succ_of_rem_ne_zero {t : Nat} {s : State} (h : (afterStream t s).rem ≠ 0) :
    blocksProduced (t + 1) s = blocksProduced t s := by
  simpa [blocksProduced, List.range_succ] using h

/-- One increment per block produced (R235, R237). -/
theorem afterStream_nonce (t : Nat) (s : State) : (afterStream t s).nonce = nonceAfter s (blocksProduced t s) := by
  induction t with
  | zero => rfl
  | succ t ih =>
    rw [afterStream_succ, afterTake_nonce, refill_nonce, ih, afterStream_clen]
    split
    · rw [blocksProduced_succ_of_rem_eq_zero ‹_›, nonceAfter, nonceAfter, Function.iterate_succ_apply']
    · rw [blocksProduced_succ_of_rem_ne_zero ‹_›]

/-- The block produced after `t` bytes is the next one of the sequence (R237). -/
theorem producedBlock_afterStream (t : Nat) (s : State) :
    producedBlock (afterStream t s) = blockSeq s (blocksProduced t s) := by
  rw [producedBlock, afterStream_key0, afterStream_key1, afterStream_nonce, afterStream_k256, blockSeq]

/-- The buffer holds the last block produced, if any (R251). -/
theorem afterStream_buf (t : Nat) (s : State) :
    (afterStream t s).buf = if blocksProduced t s = 0 then s.buf else blockSeq s (blocksProduced t s - 1) := by
  induction t with
  | zero => rfl
  | succ t ih =>
    rw [afterStream_succ, afterTake_buf, refill_buf]
    split
    · rw [blocksProduced_succ_of_rem_eq_zero ‹_›, producedBlock_afterStream, if_neg (Nat.succ_ne_zero _),
        Nat.add_sub_cancel]
    · rw [blocksProduced_succ_of_rem_ne_zero ‹_›, ih]

/-- Every byte taken or left was left over at the start or came in a block of 64; once a block has been produced, at least one
of its bytes has been taken. -/
theorem afterStream_rem_balance (t : Nat) (s : State) :
    (afterStream t s).rem.toNat + t = s.rem.toNat + 64 * blocksProduced t s ∧
    (blocksProduced t s ≠ 0 → (afterStream t s).rem.toNat < 64) := by
  induction t with
  | zero => exact ⟨rfl, fun h => absurd rfl h⟩
  | succ t ih =>
    obtain ⟨hbalance, hlt⟩ := ih
    rw [afterStream_succ, afterTake_rem_toNat]
    split
    · rename_i hzero
      rw [hzero] at hbalance
      rw [blocksProduced_succ_of_rem_eq_zero hzero]
      change 0 + t = _ at hbalance
      omega
    · rename_i hne
      have hpos : (afterStream t s).rem.toNat ≠ 0 := BitVec.toNat_ne.1 hne
      rw [blocksProduced_succ_of_rem_ne_zero hne]
      omega

/-- Blocks are produced for the bytes beyond the leftover ones, 64 at a time (R252, R255). -/
theorem blocksProduced_eq (t : Nat) (s : State) : blocksProduced t s = blocksFor (t - s.rem.toNat) := by
  obtain ⟨hbalance, hlt⟩ := afterStream_rem_balance t s
  unfold blocksFor
  omega

theorem afterStream_rem (t : Nat) (s : State) :
    (afterStream t s).rem.toNat = s.rem.toNat + 64 * blocksFor (t - s.rem.toNat) - t := by
  have hbalance := (afterStream_rem_balance t s).1
  rw [blocksProduced_eq] at hbalance
  omega

/-- Keystream byte `t` from any state: first the leftover bytes of `buf`, then the blocks of the sequence (R250, R255). -/
theorem takenByte_afterStream {s : State} (hrem : s.rem.toNat ≤ 64) (t : Nat) :
    takenByte (afterStream t s) =
      if t < s.rem.toNat then byteAt s.buf (64 - s.rem.toNat + t)
      else byteAt (blockSeq s ((t - s.rem.toNat) / 64)) ((t - s.rem.toNat) % 64) := by
  rw [takenByte_eq, ← afterStream_succ, afterStream_rem, afterStream_buf, blocksProduced_eq]
  by_cases hleft : t < s.rem.toNat
  · have hblocks : blocksFor (t + 1 - s.rem.toNat) = 0 := by unfold blocksFor; omega
    rw [hblocks, if_pos rfl, if_pos hleft]
    congr 1
    omega
  · have hblocks : blocksFor (t + 1 - s.rem.toNat) = (t - s.rem.toNat) / 64 + 1 := by unfold blocksFor; omega
    rw [hblocks, if_neg (Nat.succ_ne_zero _), if_neg hleft, Nat.add_sub_cancel]
    congr 1
    omega

theorem takenByte_afterStream_of_rem_eq_zero {s : State} (h : s.rem = 0) (t : Nat) :
    takenByte (afterStream t s) = keystreamByte s t := by
  have hzero : s.rem.toNat = 0 := by rw [h]; rfl
  rw [takenByte_afterStream (by omega), hzero, if_neg (Nat.not_lt_zero t), Nat.sub_zero, keystreamByte]

/-- Settles O37: the accounting from any state, with no byte left over at the start. -/
theorem keystreamAccounting : Obligations.KeystreamAccounting := by
  intro s t h
  have hzero : s.rem.toNat = 0 := by rw [h]; rfl
  have hblocks : blocksProduced t s = blocksFor t := by rw [blocksProduced_eq, hzero, Nat.sub_zero]
  have hremaining : (afterStream t s).rem.toNat = 64 * blocksFor t - t := by
    rw [afterStream_rem, hzero, Nat.sub_zero, Nat.zero_add]
  refine ⟨hblocks, by rw [afterStream_nonce, hblocks], ?_, fun hpos => ?_⟩
  · rw [hremaining]
    unfold blocksFor
    omega
  · rw [afterStream_buf, hblocks, if_neg (by omega)]

end Sys2Proof.Proofs
end

section
/-! PROOFS. `XORSTREAM` byte by byte, and its being its own inverse (R260, R261). -/

namespace Sys2Proof.Proofs

open Sys2Proof Sys2Proof.Machine Sys2Proof.Claims

theorem xorStream_length (message : List Byte) (s : State) : (xorStream message s).length = message.length := by
  induction message generalizing s with
  | nil => rfl
  | cons m message ih => rw [xorStream, List.length_cons, ih, List.length_cons]

theorem getElem?_xorStream (message : List Byte) (s : State) (t : Nat) :
    (xorStream message s)[t]? = message[t]?.map (· ^^^ takenByte (afterStream t s)) := by
  induction message generalizing s t with
  | nil => rfl
  | cons m message ih =>
    cases t with
    | zero => rfl
    | succ t => exact ih (afterTake s) t

theorem xorStream_xorStream (message : List Byte) (s : State) : xorStream (xorStream message s) s = message := by
  induction message generalizing s with
  | nil => rfl
  | cons m message ih => rw [xorStream, xorStream, ih, BitVec.xor_assoc, BitVec.xor_self, BitVec.xor_zero]

theorem getElem?_xorStream_of_rem_eq_zero {s : State} (h : s.rem = 0) {message : List Byte} {t : Nat} {m : Byte}
    (hm : message[t]? = some m) : (xorStream message s)[t]? = some (m ^^^ keystreamByte s t) := by
  rw [getElem?_xorStream, hm, takenByte_afterStream_of_rem_eq_zero h, Option.map_some]

/-- Settles O38: the output byte by byte, with the byte and block counts of a fresh session. -/
theorem streamXorsTheKeystream : Obligations.StreamXorsTheKeystream := by
  refine ⟨fun s message => ⟨xorStream_length message s, fun t m hm => ?_⟩,
    fun s message h => ⟨fun t m hm => getElem?_xorStream_of_rem_eq_zero h hm, ?_⟩⟩
  · rw [getElem?_xorStream, hm, Option.map_some]
  · exact (keystreamAccounting s message.length h).1

end Sys2Proof.Proofs
end

section
/-! PROOFS. The command XOR: its loop as a stretch of the stream, its closed form, and its refusals (R253 to R255). -/

namespace Sys2Proof.Proofs

open Sys2Proof Sys2Proof.Machine Sys2Proof.Claims

/-! ### The loop -/

/-- One round of the loop writes, beside what `TAKEBYTE` writes, `DOUT` only. -/
theorem sameSession_xorByte (i : Nat) (s : State) : sameSession (xorByte i s) (afterTake s) :=
  ⟨rfl, rfl, rfl, rfl, rfl, rfl, rfl, rfl⟩

/-- The loop leaves the session that taking its bytes leaves. -/
theorem sameSession_xorLoop (n i : Nat) (s : State) : sameSession (xorLoop n i s) (afterStream n s) := by
  induction n generalizing i s with
  | zero => exact sameSession_refl s
  | succ n ih => exact sameSession_trans (ih (i + 1) _) (sameSession_afterStream (sameSession_xorByte i s) n)

/-- Each round writes its own byte of `DOUT` (R253). -/
theorem byteAt_dout_xorLoop (n i : Nat) (s : State) {k : Nat} (hk : k < 64) :
    byteAt (xorLoop n i s).dout k =
      if i ≤ k ∧ k < i + n then byteAt s.din k ^^^ takenByte (afterStream (k - i) s) else byteAt s.dout k := by
  induction n generalizing i s with
  | zero => rw [if_neg (by omega)]; rfl
  | succ n ih =>
    rw [xorLoop, ih, xorByte_din, xorByte_dout]
    obtain hlt | rfl | hgt := Nat.lt_trichotomy k i
    · rw [if_neg (by omega), if_neg (by omega), byteAt_putByte_other _ (by omega)]
    · rw [if_neg (by omega), if_pos (by omega), byteAt_putByte_same _ hk, Nat.sub_self, afterStream]
    · have hbyte : takenByte (afterStream (k - (i + 1)) (xorByte i s)) = takenByte (afterStream (k - i) s) := by
        rw [show k - i = k - (i + 1) + 1 by omega, afterStream]
        exact takenByte_congr (sameSession_afterStream (sameSession_xorByte i s) _)
      rw [hbyte, byteAt_putByte_other _ (by omega)]
      exact if_congr (by omega) rfl rfl

/-! ### The command -/

/-- With a session an XOR of at most 64 bytes runs the loop (R253). -/
theorem exec_xor_of_valid {s : State} {n : Nat} (hvalid : s.valid = true) (hn : n ≤ 64) :
    exec (.xor n n) s = .next (complete (xorLoop n 0 s)) := by
  have hwindow : ¬ Config.dataWindow < n := Nat.not_lt.2 hn
  exact exec_of_checksPass (by simp [commandError, hvalid, hwindow])

/-- Byte `i` of `DOUT` after an XOR of `n` bytes (R253, R255). -/
theorem byteAt_dout_xorLoop_closed {s : State} (hrem : s.rem.toNat ≤ 64) (n : Nat) {i : Nat} (hi : i < 64) :
    byteAt (xorLoop n 0 s).dout i =
      if i < n then
        byteAt s.din i ^^^
          (if i < s.rem.toNat then byteAt s.buf (64 - s.rem.toNat + i) else byteAt (blockSeq s 0) (i - s.rem.toNat))
      else byteAt s.dout i := by
  rw [byteAt_dout_xorLoop n 0 s hi, takenByte_afterStream hrem, Nat.sub_zero, Nat.div_eq_of_lt (by omega),
    Nat.mod_eq_of_lt (by omega)]
  exact if_congr (by omega) rfl rfl

/-- What an XOR of at most 64 bytes leaves of the session: it produces no block or one (R255). -/
theorem xorLoop_session {n : Nat} (hn : n ≤ 64) (i : Nat) (s : State) :
    (xorLoop n i s).rem.toNat = (if n ≤ s.rem.toNat then s.rem.toNat - n else 64 - (n - s.rem.toNat)) ∧
    (xorLoop n i s).buf = (if n ≤ s.rem.toNat then s.buf else blockSeq s 0) ∧
    (xorLoop n i s).nonce = (if n ≤ s.rem.toNat then s.nonce else incr s.nonce s.clen.toNat) := by
  obtain ⟨-, -, hnonce, -, -, hbuf, hrem, -⟩ := sameSession_xorLoop n i s
  rw [hrem, hbuf, hnonce, afterStream_rem, afterStream_buf, afterStream_nonce, blocksProduced_eq]
  split
  · have hblocks : blocksFor (n - s.rem.toNat) = 0 := by unfold blocksFor; omega
    rw [hblocks]
    exact ⟨rfl, rfl, rfl⟩
  · have hblocks : blocksFor (n - s.rem.toNat) = 1 := by unfold blocksFor; omega
    rw [hblocks]
    exact ⟨by omega, rfl, rfl⟩

/-- The loop writes the session, `DOUT` and registers without architectural value only (R55). -/
theorem architectural_complete_xorLoop (n i : Nat) (s : State) :
    (complete (xorLoop n i s)).architectural = { s with
      dout := (xorLoop n i s).dout
      rem := (xorLoop n i s).rem
      buf := (xorLoop n i s).buf
      nonce := (xorLoop n i s).nonce
      err := 0
      phase := .idle }.architectural := by
  simp [State.architectural]

theorem decode_xor_word {lenIn lenOut : Nat} (hin : lenIn < 256) (hout : lenOut < 256) :
    decode (BitVec.ofNat 32 (0x04 + 256 * lenIn + 65536 * lenOut)) = .ok (.xor lenIn lenOut) := by
  have hword : BitVec.ofNat 32 (0x04 + 256 * lenIn + 65536 * lenOut) = encode (.xor lenIn lenOut) :=
    ofNat_eq_packFields (by omega) hin hout
  rw [hword]
  exact decode_encode (Bool.and_eq_true_iff.2 ⟨(fitsField_iff lenIn).2 hin, (fitsField_iff lenOut).2 hout⟩)

/-! ### The refusals, each by the first check that fails (R253, R278) -/

/-- An error that keeps the session changes the flags only (R277). -/
theorem raise_of_not_endsSession {e : ErrCode} (he : e.endsSession = false) (s : State) :
    raise e s = { s with err := e.code, fault := true, phase := .idle } := by
  simp [raise, he]

theorem exec_xor_of_not_valid {s : State} (hvalid : s.valid = false) (lenIn lenOut : Nat) :
    exec (.xor lenIn lenOut) s = .next (raise .nosession s) :=
  exec_of_commandError (by simp [commandError, hvalid])

theorem exec_xor_of_length_ne {s : State} (hvalid : s.valid = true) {lenIn lenOut : Nat} (hne : lenIn ≠ lenOut) :
    exec (.xor lenIn lenOut) s = .next (raise .length s) :=
  exec_of_commandError (by simp [commandError, hvalid, hne])

theorem exec_xor_of_length_gt {s : State} (hvalid : s.valid = true) {len : Nat} (hlen : 64 < len) :
    exec (.xor len len) s = .next (raise .range s) := by
  have hwindow : Config.dataWindow < len := hlen
  exact exec_of_commandError (by simp [commandError, hvalid, hwindow])

/-! ### The obligations on one command -/

/-- Settles O35: the loop in closed form, the first failing check of each refusal, the words by the encoding. -/
theorem xorCommandClosedForm : Obligations.XorCommandClosedForm := by
  refine ⟨fun s n hvalid hrem hn => ?_, fun lenIn lenOut s hvalid => ?_, fun lenIn lenOut s hvalid hne => ?_,
    fun len s hvalid hlen => ?_, fun lenIn hin lenOut hout => decode_xor_word hin hout, fun w s _ hrsv => ?_⟩
  · obtain ⟨hleft, hbuf, hnonce⟩ := xorLoop_session hn 0 s
    refine ⟨_, exec_xor_of_valid hvalid hn, fun i hi => byteAt_dout_xorLoop_closed hrem n hi, hleft, ?_⟩
    rw [architectural_complete_xorLoop, hbuf, hnonce]
    rfl
  · rw [exec_xor_of_not_valid hvalid, raise_of_not_endsSession rfl]
    rfl
  · rw [exec_xor_of_length_ne hvalid hne, raise_of_not_endsSession rfl]
    rfl
  · rw [exec_xor_of_length_gt hvalid hlen, raise_of_not_endsSession rfl]
    rfl
  · obtain ⟨e, he⟩ := (decode_error_iff_fields w).2 (.inl hrsv)
    exact runCommand_of_decode_error s he

/-- Settles O36: the loop of length 0 is the identity. -/
theorem zeroLengthXorIsANoOp : Obligations.ZeroLengthXorIsANoOp :=
  ⟨by decide, fun _ hvalid => exec_xor_of_valid hvalid (Nat.zero_le 64),
    fun _ hvalid => exec_xor_of_not_valid hvalid 0 0⟩

/-- Settles O41: NEXT keeps `rem` and `buf`, and the blocks of the session it leaves are those from block 1 on. -/
theorem nextRemovesOneBlockFromTheStream : Obligations.NextRemovesOneBlockFromTheStream := by
  intro s n hvalid hrem hn
  refine ⟨afterNext s, _, exec_next_of_valid hvalid, exec_xor_of_valid hvalid hn, rfl, fun i hi => ?_⟩
  have hblock : blockSeq (afterNext s) 0 = blockSeq s 1 := by rw [blockSeq, nonceAfter_afterNext]; rfl
  have hdout := byteAt_dout_xorLoop_closed (s := afterNext s) hrem n (Nat.lt_of_lt_of_le hi hn)
  rw [if_pos hi, hblock] at hdout
  exact hdout

end Sys2Proof.Proofs
end

section
/-! PROOFS. A message cut into XOR commands is one stretch of the unbounded stream (R258, R260). -/

namespace Sys2Proof.Proofs

open Sys2Proof Sys2Proof.Machine Sys2Proof.Claims

/-- One XOR of a chunk in `DIN`: its bytes of `DOUT` are the stream's output, and it leaves the stream's session. -/
theorem exec_xor_chunk {s t : State} {din : Bytes 64} {chunk : List Byte} (hvalid : s.valid = true)
    (hlen : chunk.length ≤ 64) (hdin : ∀ i < chunk.length, chunk[i]? = some (byteAt din i))
    (hexec : exec (.xor chunk.length chunk.length) { s with din := din } = .next t) :
    (List.range chunk.length).map (fun i => byteAt t.dout i) = xorStream chunk s ∧
    sameSession t (afterStream chunk.length s) := by
  have hsame : sameSession { s with din := din } s := ⟨rfl, rfl, rfl, rfl, rfl, rfl, rfl, rfl⟩
  rw [exec_xor_of_valid (s := { s with din := din }) hvalid hlen] at hexec
  injection hexec with hexec
  subst hexec
  constructor
  · apply List.ext_getElem?
    intro i
    rw [getElem?_xorStream, List.getElem?_map]
    by_cases hi : i < chunk.length
    · rw [List.getElem?_range hi, hdin i hi, Option.map_some, Option.map_some, complete_dout,
        byteAt_dout_xorLoop _ _ _ (by omega), if_pos (by omega), Nat.sub_zero,
        takenByte_congr (sameSession_afterStream hsame i)]
    · rw [List.getElem?_eq_none (by simpa using hi), List.getElem?_eq_none (by omega)]
      rfl
  · exact sameSession_trans (sameSession_xorLoop chunk.length 0 _) (sameSession_afterStream hsame _)

/-- A run chunk by chunk outputs the stream XOR of the whole message and leaves the session of the whole stream. -/
theorem chunkRun_eq_stream {s u : State} {chunks : List (List Byte)} {out : List Byte} (hrun : ChunkRun s chunks out u)
    (hvalid : s.valid = true) :
    out = xorStream chunks.flatten s ∧ sameSession u (afterStream chunks.flatten.length s) := by
  induction hrun with
  | nil s => exact ⟨rfl, sameSession_refl s⟩
  | cons s t u din chunk rest out hlen hdin hexec _ ih =>
    obtain ⟨hout, hsame⟩ := exec_xor_chunk hvalid hlen hdin hexec
    obtain ⟨hrest, hend⟩ := ih (by rw [valid_eq_of_sameSession hsame, afterStream_valid, hvalid])
    constructor
    · rw [hout, hrest, xorStream_congr hsame, List.flatten_cons, xorStream_append]
    · rw [List.flatten_cons, List.length_append, afterStream_add]
      exact sameSession_trans hend (sameSession_afterStream hsame _)

/-- Settles O39: output and final session of a run are those of the whole stream. -/
theorem streamingEquivalence : Obligations.StreamingEquivalence := by
  intro s u chunks out hvalid _ hrun
  obtain ⟨rfl, -, -, hnonce, -, -, hbuf, hrem, -⟩ := chunkRun_eq_stream hrun hvalid
  exact ⟨rfl, hnonce, hrem, fun i _ => by rw [hbuf], fun h t m hm => getElem?_xorStream_of_rem_eq_zero h hm⟩

/-- Settles O40: both runs are the stream of one session, and the stream XOR is its own inverse. -/
theorem decryptionIsEncryption : Obligations.DecryptionIsEncryption := by
  refine ⟨fun s message => xorStream_xorStream message s,
    fun s s' u u' chunks chunks' out out' hvalid _ hsame hrun hrun' hcipher => ?_⟩
  obtain ⟨hout, hend⟩ := chunkRun_eq_stream hrun hvalid
  obtain ⟨hout', hend'⟩ := chunkRun_eq_stream hrun' ((valid_eq_of_sameSession hsame).symm.trans hvalid)
  rw [hcipher, hout] at hout' hend'
  rw [xorStream_length] at hend'
  constructor
  · rw [hout', ← xorStream_congr hsame, xorStream_xorStream]
  · exact sameSession_trans hend (sameSession_trans (sameSession_afterStream hsame _) (sameSession_symm hend'))

end Sys2Proof.Proofs
end

section
/-! PROOFS. The errors: what `raise` writes, the order of the checks, and the precision of a refusal (R277 to R279). -/

namespace Sys2Proof.Proofs

open Sys2Proof Sys2Proof.Machine Sys2Proof.Claims

/-! ### The error codes (R270, R277) -/

/-- The errors that end the session are those of the two initialisation checks (R277). -/
theorem endsSession_iff (e : ErrCode) : e.endsSession = true ↔ e = .keylen ∨ e = .clen := by
  cases e <;> decide

/-- No error has the code of `OK` (R270). -/
theorem code_ne_zero (e : ErrCode) : e.code ≠ 0 := by
  cases e <;> decide

/-- The errors that end the session are told by their codes (R270, R277). -/
theorem code_of_endsSession {e : ErrCode} (he : e.endsSession = true) : e.code = 2 ∨ e.code = 3 := by
  obtain rfl | rfl := (endsSession_iff e).1 he
  · exact .inl rfl
  · exact .inr rfl

/-- Settles O26: `raise` by whether the error ends the session, and the list of codes. -/
theorem raiseWritesErrFaultAndValid : Obligations.RaiseWritesErrFaultAndValid := by
  refine ⟨fun e s => ?_, rfl⟩
  cases he : e.endsSession with
  | true => rw [raise_of_endsSession he, if_pos ((endsSession_iff e).1 he)]
  | false => rw [raise_of_not_endsSession he, if_neg (by simp [← endsSession_iff, he])]

/-! ### The order of the checks (R278) -/

/-- Without a session NEXT raises `ERR_NOSESSION` (R236). -/
theorem exec_next_eq_raise_of_not_valid {s : State} (hvalid : s.valid = false) :
    exec .next s = .next (raise .nosession s) :=
  exec_of_commandError (by simp [commandError, hvalid])

/-- Settles O27: each clause is the outcome of one check of the command when those before it pass; BLOCK always
completes, and the last word is illegal by its `RSV`. -/
theorem errorsHaveThisPriority : Obligations.ErrorsHaveThisPriority := by
  refine ⟨fun w e s => runCommand_of_decode_error s, fun klen s hk => exec_initStd_of_not_keyLength hk s,
    fun klen clen s hk => exec_initCustom_of_not_keyLength hk clen s,
    fun klen clen s hk hc => exec_initCustom_of_not_counterLength hk (by omega) s,
    fun s => exec_next_eq_raise_of_not_valid, fun lenIn lenOut s hvalid => exec_xor_of_not_valid hvalid lenIn lenOut,
    fun lenIn lenOut s hvalid => exec_xor_of_length_ne hvalid, fun len s hvalid => exec_xor_of_length_gt hvalid,
    fun raw s t h => ?_,
    fun s => runCommand_of_decode_error s (show decode 0x01000F01 = .error .reservedNotZero by decide)⟩
  obtain rfl := execBlock_cases h
  exact complete_err _

/-! ### Refused commands (R279) -/

/-- An error either leaves `valid` or is an initialisation error that clears it (R277). -/
theorem raise_valid_cases (e : ErrCode) (s : State) :
    (raise e s).valid = s.valid ∨ ((raise e s).valid = false ∧ ((raise e s).err = 2 ∨ (raise e s).err = 3)) := by
  cases he : e.endsSession with
  | false => exact .inl (raise_valid_of_not_endsSession he s)
  | true => exact .inr ⟨raise_valid_of_endsSession he s, code_of_endsSession he⟩

/-- Settles O28: a command with a failing check is exactly `raise`, whose code is not 0; one whose checks pass completes
with `err = 0`. -/
theorem refusalsArePrecise : Obligations.RefusalsArePrecise := by
  intro i s
  cases he : commandError i s with
  | some e =>
    refine ⟨raise e s, exec_of_commandError he, fun _ => rfl, fun _ => raise_valid_cases e s, fun herr => ?_, nofun⟩
    exact absurd herr (code_ne_zero e)
  | none =>
    have herr : (complete (commandEffect i s)).err = 0 := complete_err _
    exact ⟨_, exec_of_checksPass he, absurd herr, absurd herr, fun _ => rfl, fun _ => herr⟩

end Sys2Proof.Proofs
end

section
/-! PROOFS. The reset event, and the state after reset (R51, R300). -/

namespace Sys2Proof.Proofs

open Sys2Proof Sys2Proof.Machine Sys2Proof.Claims

/-- What a block production or a reset releases holds no architectural value (R39, R40; log 4). -/
theorem architectural_releaseWork (s : State) : (releaseWork s).architectural = s.architectural := rfl

/-- `STATUS` shows architectural registers only (R48). -/
theorem statusWord_architectural (s : State) : statusWord s.architectural = statusWord s := rfl

/-- The reset event leaves the state after reset, with the host's script and read log (R300; log 6). -/
theorem architectural_hardReset (s : State) :
    (hardReset s).architectural = { State.reset with script := s.script, readLog := s.readLog }.architectural :=
  architectural_releaseWork _

theorem statusWord_reset : statusWord State.reset = 0 := by decide

/-- `STATUS` reads 0 after the reset event: the script and the read log are not in it (R48, R300). -/
theorem statusWord_hardReset (s : State) : statusWord (hardReset s) = 0 := by
  rw [← statusWord_architectural, architectural_hardReset, statusWord_architectural]
  exact statusWord_reset

/-- Settles O44: the event leaves what `architectural_hardReset` says, and the values of R51 are those `State.reset` is
written with. -/
theorem resetEventZeroesTheState : Obligations.ResetEventZeroesTheState := by
  refine ⟨fun s => ⟨hardReset s, rfl, architectural_hardReset s, statusWord_hardReset s⟩, statusWord_reset, ?_⟩
  exact ⟨rfl, rfl, rfl, rfl, rfl, rfl, rfl, rfl, rfl, rfl, rfl, rfl, rfl, rfl, rfl, rfl, rfl⟩

end Sys2Proof.Proofs
end

section
/-! PROOFS. The two round trips between command words and commands (R100 to R103, R105). -/

namespace Sys2Proof.Proofs

open Sys2Proof Sys2Proof.Machine Sys2Proof.Claims

/-- Settles O1: the word of a well-formed command matches the command's row and carries its fields, so the lookup finds it. -/
theorem decodeInvertsEncode : Obligations.DecodeInvertsEncode := fun _ => decode_encode

/-- Settles O2: the matching row fixes every field of the word that the command does not carry. -/
theorem encodeInvertsDecode : Obligations.EncodeInvertsDecode := fun _ _ h => ⟨wellFormed_of_decode h, encode_of_decode h⟩

end Sys2Proof.Proofs
end

section
/-! PROOFS. The registers each command may write (R55), and the invariants of R50 along every step. -/

namespace Sys2Proof.Proofs

open Sys2Proof Sys2Proof.Machine Sys2Proof.Claims

/-! ### The write table -/

/-- A command's next state is the one `raise` leaves after a failing check, or its completed writes. -/
theorem exec_cases {i : Instr} {s t : State} (h : exec i s = .next t) :
    (∃ e, commandError i s = some e ∧ t = raise e s) ∨
    (commandError i s = none ∧ t = complete (commandEffect i s)) := by
  cases he : commandError i s with
  | some e =>
    rw [exec_of_commandError he] at h
    injection h with h
    exact .inl ⟨e, rfl, h.symm⟩
  | none =>
    rw [exec_of_checksPass he] at h
    injection h with h
    exact .inr ⟨rfl, h.symm⟩

/-- No command's writes reach a staging register, the script or the read log. -/
theorem commandEffect_hostSide (i : Instr) (s : State) :
    (commandEffect i s).keyin = s.keyin ∧ (commandEffect i s).noncein = s.noncein ∧
    (commandEffect i s).constin = s.constin ∧ (commandEffect i s).din = s.din ∧
    (commandEffect i s).script = s.script ∧ (commandEffect i s).readLog = s.readLog := by
  cases i <;> simp [commandEffect]

/-- Only a command of initialisation has a check whose error ends the session (R277). -/
theorem endsSession_of_commandError {i : Instr} {s : State} {e : ErrCode} (he : commandError i s = some e)
    (hstd : ∀ k, i ≠ .initStd k) (hcustom : ∀ k c, i ≠ .initCustom k c) : e.endsSession = false := by
  cases i with
  | initStd klen => exact absurd rfl (hstd klen)
  | initCustom klen clen => exact absurd rfl (hcustom klen clen)
  | next =>
    simp only [commandError] at he
    split at he <;> cases he
    rfl
  | xor lenIn lenOut =>
    simp only [commandError] at he
    repeat' split at he
    all_goals cases he <;> rfl
  | block raw => cases he

/-- Settles O46: a refused command writes the flags only, and the writes of a completed one are listed by `commandEffect`. -/
theorem commandsWriteOnlyTheirRegisters : Obligations.CommandsWriteOnlyTheirRegisters := by
  intro i s t h
  obtain ⟨e, he, rfl⟩ | ⟨-, rfl⟩ := exec_cases h
  · exact ⟨⟨rfl, rfl, rfl, rfl, rfl, rfl⟩, fun _ => rfl, fun _ => rfl,
      fun ⟨hstd, hcustom⟩ =>
        ⟨rfl, rfl, rfl, rfl, raise_valid_of_not_endsSession (endsSession_of_commandError he hstd hcustom) s⟩,
      fun _ => ⟨rfl, rfl⟩, fun _ => rfl⟩
  · refine ⟨commandEffect_hostSide i s, ?_⟩
    cases i <;> simp [commandEffect]

/-! ### The invariants (R50) -/

/-- Settles O42: no session, no leftover byte and no error at reset. -/
theorem resetMeetsTheInvariant : Obligations.ResetMeetsTheInvariant where
  clen_range := nofun
  halves_equal := nofun
  rem_range := Nat.zero_le 64
  err_range := Nat.zero_le 6
  err_fault h := absurd rfl h
  phase_idle := rfl

/-- The invariants speak of no staging register, script, read log or working register. -/
theorem inv_of_sameSession_flags {s t : State} (hs : s.Inv) (h : sameSession s t)
    (hflags : t.err = s.err ∧ t.fault = s.fault ∧ t.phase = s.phase) : t.Inv := by
  obtain ⟨hkey0, hkey1, -, hclen, hk256, -, hrem, hvalid⟩ := h
  obtain ⟨herr, hfault, hphase⟩ := hflags
  constructor
  · rw [← hvalid, ← hclen]; exact hs.clen_range
  · rw [← hvalid, ← hk256, ← hkey0, ← hkey1]; exact hs.halves_equal
  · rw [← hrem]; exact hs.rem_range
  · rw [herr]; exact hs.err_range
  · rw [herr, hfault]; exact hs.err_fault
  · rw [hphase]; exact hs.phase_idle

/-- The error codes are 1 to 6 (R270). -/
theorem code_le_six (e : ErrCode) : e.code.toNat ≤ 6 := by
  cases e <;> decide

/-- An error keeps the invariants: a session that is still there was there before (R277). -/
theorem inv_raise {s : State} (hs : s.Inv) (e : ErrCode) : (raise e s).Inv where
  clen_range hvalid := hs.clen_range (Bool.and_eq_true_iff.1 hvalid).1
  halves_equal hvalid := hs.halves_equal (Bool.and_eq_true_iff.1 hvalid).1
  rem_range := hs.rem_range
  err_range := code_le_six e
  err_fault _ := rfl
  phase_idle := rfl

/-- A completed command meets the invariants when its session does: the flags are those of `complete`. -/
theorem inv_complete {s : State} (hclen : s.valid = true → 1 ≤ s.clen.toNat ∧ s.clen.toNat ≤ 16)
    (hhalves : s.valid = true → s.k256 = false → s.key0 = s.key1) (hrem : s.rem.toNat ≤ 64) : (complete s).Inv where
  clen_range := hclen
  halves_equal := hhalves
  rem_range := hrem
  err_range := Nat.zero_le 6
  err_fault h := absurd rfl h
  phase_idle := rfl

/-- A session opened with a counter length in range meets the invariants (R202, R208). -/
theorem inv_complete_openSession (nonce : Bytes 16) {clen : Nat} (hclen : 1 ≤ clen ∧ clen ≤ 16) (klen : Nat) (s : State) :
    (complete (openSession nonce clen (keySetup klen s))).Inv := by
  refine inv_complete (fun _ => ?_) (fun _ hk256 => ?_) (Nat.zero_le 64)
  · have hval : (BitVec.ofNat 5 clen).toNat = clen := by rw [BitVec.toNat_ofNat]; omega
    rw [openSession_clen, hval]
    exact hclen
  · have hklen : klen ≠ 32 := by simpa using hk256
    exact (if_neg hklen).symm

/-- At most a whole block is left over after any number of bytes (R251). -/
theorem xorLoop_rem_le {s : State} (hrem : s.rem.toNat ≤ 64) (n i : Nat) : (xorLoop n i s).rem.toNat ≤ 64 := by
  obtain ⟨-, -, -, -, -, -, hleft, -⟩ := sameSession_xorLoop n i s
  rw [hleft, afterStream_rem]
  unfold blocksFor
  omega

theorem exec_keeps_inv {i : Instr} {s t : State} (hs : s.Inv) (h : exec i s = .next t) : t.Inv := by
  cases i with
  | initStd klen =>
    obtain ⟨-, rfl⟩ | ⟨-, rfl⟩ := execInitStd_cases h
    · exact inv_complete_openSession _ (by decide) klen s
    · exact inv_raise hs _
  | initCustom klen clen =>
    obtain ⟨-, hclen, rfl⟩ | ⟨-, -, rfl⟩ | ⟨-, rfl⟩ := execInitCustom_cases h
    · exact inv_complete_openSession _ hclen klen s
    · exact inv_raise hs _
    · exact inv_raise hs _
  | next =>
    obtain ⟨-, rfl⟩ | ⟨-, rfl⟩ := execNext_cases h
    · exact inv_complete hs.clen_range hs.halves_equal hs.rem_range
    · exact inv_raise hs _
  | xor lenIn lenOut =>
    obtain ⟨-, -, -, rfl⟩ | ⟨-, -, -, rfl⟩ | ⟨-, -, rfl⟩ | ⟨-, rfl⟩ := execXor_cases h
    · refine inv_complete ?_ ?_ (xorLoop_rem_le hs.rem_range lenIn 0)
      · simpa using hs.clen_range
      · simpa using hs.halves_equal
    · exact inv_raise hs _
    · exact inv_raise hs _
    · exact inv_raise hs _
  | block raw =>
    obtain rfl := execBlock_cases h
    exact inv_complete hs.clen_range hs.halves_equal hs.rem_range

theorem hostWrite_keeps_inv {off : Offset} {n : Nat} {v : Word} {s t : State} (hs : s.Inv)
    (h : hostWrite off n v s = .next t) : t.Inv := by
  obtain ⟨-, ⟨_, -, hrun⟩ | ⟨name, i, -, -, rfl⟩⟩ := hostWrite_cases h
  · obtain ⟨i, -, hexec⟩ | ⟨e, -, rfl⟩ := runCommand_cases hrun
    · exact exec_keeps_inv hs hexec
    · exact inv_raise hs _
  · refine inv_of_sameSession_flags hs (writeReg_sameSession name i v s) ?_
    rw [writeReg_frame]
    exact ⟨rfl, rfl, rfl⟩

/-- The script is no part of the hardware (R108). -/
theorem inv_withScript {s : State} (hs : s.Inv) (ops : List HostOp) : State.Inv { s with script := ops } :=
  inv_of_sameSession_flags hs (sameSession_refl s) ⟨rfl, rfl, rfl⟩

/-- Settles O43, by the cases of a step: an error, a completed command, a register write, a read, a reset. -/
theorem stepKeepsTheInvariant : Obligations.StepKeepsTheInvariant := by
  intro s t hs h
  obtain ⟨-, rfl⟩ | ⟨op, rest, -, ⟨-, rfl⟩ | ⟨off, n, v, -, hw⟩ | ⟨off, n, -, hr⟩⟩ := step_cases h
  · exact hs
  · exact inv_of_sameSession_flags resetMeetsTheInvariant (sameSession_refl _) ⟨rfl, rfl, rfl⟩
  · exact hostWrite_keeps_inv (inv_withScript hs rest) hw
  · obtain ⟨-, name, i, -, rfl⟩ := hostRead_cases hr
    exact inv_of_sameSession_flags hs (sameSession_refl s) ⟨rfl, rfl, rfl⟩

end Sys2Proof.Proofs
end

section
/-! PROOFS. Which host accesses have a next state, the words of the register arrays, and what reads do not reveal (R71, R74,
R75, R78, R53). -/

namespace Sys2Proof.Proofs

open Sys2Proof Sys2Proof.Machine Sys2Proof.Claims

/-! ### Accesses that stop -/

theorem hostRead_of_not_aligned {off : Offset} {n : Nat} (h : alignedWord off n ≠ true) (s : State) :
    hostRead off n s = .refused (.notAlignedWord off n) := if_neg h

theorem hostWrite_of_not_aligned {off : Offset} {n : Nat} (h : alignedWord off n ≠ true) (v : Word) (s : State) :
    hostWrite off n v s = .refused (.notAlignedWord off n) := if_neg h

theorem hostRead_of_unmapped {off : Offset} {n : Nat} (ha : alignedWord off n = true) (hr : regAt off = none) (s : State) :
    hostRead off n s = .fault (.unmappedOffset off) := by
  rw [hostRead, if_pos ha, hr]

theorem hostWrite_of_unmapped {off : Offset} {n : Nat} (ha : alignedWord off n = true) (hr : regAt off = none) (v : Word)
    (s : State) : hostWrite off n v s = .fault (.unmappedOffset off) := by
  rw [hostWrite, if_pos ha, hr]

theorem alignedWord_iff (off : Offset) (n : Nat) : alignedWord off n = true ↔ n = 4 ∧ off.toNat % 4 = 0 := by
  simp [alignedWord]

/-- The offsets where no register is (R75). -/
abbrev IsGap (off : Offset) : Prop :=
  (0x008 ≤ off.toNat ∧ off.toNat < 0x010) ∨ (0x060 ≤ off.toNat ∧ off.toNat < 0x080) ∨ 0x140 ≤ off.toNat

theorem regAt_eq_none_iff (off : Offset) : regAt off = none ↔ IsGap off := by
  rw [regAt, Option.map_eq_none_iff, List.find?_eq_none]
  simp only [registerMap, List.forall_mem_cons, MapRow.holds, Bool.and_eq_true, decide_eq_true_eq,
    List.not_mem_nil, false_implies, implies_true, and_true, IsGap]
  omega

/-! ### Accesses that complete -/

/-- A command word never stops the machine, legal or not (R105, R277). -/
theorem runCommand_isNext (w : Word) (s : State) : ∃ t, runCommand w s = .next t := by
  cases hd : decode w with
  | ok i => exact runCommand_of_decode_ok s hd ▸ exec_isNext i s
  | error e => exact ⟨_, runCommand_of_decode_error s hd⟩

/-- A write to a mapped word completes: it runs a command or is a register write. -/
theorem hostWrite_isNext {off : Offset} {n : Nat} (ha : alignedWord off n = true) (hr : (regAt off).isSome = true)
    (v : Word) (s : State) : ∃ t, hostWrite off n v s = .next t := by
  obtain ⟨⟨name, i⟩, hreg⟩ := Option.isSome_iff_exists.1 hr
  obtain ⟨rfl, -⟩ := (alignedWord_iff off n).1 ha
  by_cases hn : name = .cmd
  · subst hn
    obtain ⟨rfl, -⟩ := regAt_cmd ha hreg
    exact hostWrite_cmd v s ▸ runCommand_isNext v s
  · exact ⟨_, hostWrite_of_regAt v s ha hreg hn⟩

theorem hostRead_isNext {off : Offset} {n : Nat} (ha : alignedWord off n = true) (hr : (regAt off).isSome = true)
    (s : State) : ∃ t, hostRead off n s = .next t := by
  obtain ⟨⟨name, i⟩, hreg⟩ := Option.isSome_iff_exists.1 hr
  obtain ⟨rfl, -⟩ := (alignedWord_iff off n).1 ha
  exact ⟨_, hostRead_of_regAt s ha hreg⟩

/-- Settles O49: the alignment is looked at first, then the gaps of the register map. -/
theorem accessesOutsideTheInterfaceStop : Obligations.AccessesOutsideTheInterfaceStop := by
  have haligned {off : Offset} (ho : off.toNat % 4 = 0) : alignedWord off 4 = true := (alignedWord_iff off 4).2 ⟨rfl, ho⟩
  refine ⟨fun off n v s h => ?_, fun off v s ho hgap => ?_, fun off v s ho hgap => ?_⟩
  · have ha : alignedWord off n ≠ true := by rw [Ne, alignedWord_iff]; omega
    exact ⟨hostWrite_of_not_aligned ha v s, hostRead_of_not_aligned ha s⟩
  · have hr := (regAt_eq_none_iff off).2 hgap
    exact ⟨hostWrite_of_unmapped (haligned ho) hr v s, hostRead_of_unmapped (haligned ho) hr s⟩
  · have hr : (regAt off).isSome = true := Option.isSome_iff_ne_none.2 (mt (regAt_eq_none_iff off).1 hgap)
    exact ⟨hostWrite_isNext (haligned ho) hr v s, hostRead_isNext (haligned ho) hr s⟩

/-! ### The words of the arrays -/

/-- Settles O50: each clause is the access of one row of the register map. -/
theorem arrayRegistersOfTheWindow : Obligations.ArrayRegistersOfTheWindow := by
  refine ⟨fun i v s hi => ?_, fun i v s hi => ⟨?_, ?_, ?_, ?_, ?_⟩, fun i v s hi => ⟨?_, ?_, ?_, ?_⟩⟩
  · exact hostWrite_word (row := ⟨0x010, 32, .keyin⟩) (by decide) hi (by decide) v s
  · exact hostWrite_word (row := ⟨0x030, 16, .noncein⟩) (by decide) hi (by decide) v s
  · exact hostWrite_word (row := ⟨0x040, 16, .constin⟩) (by decide) hi (by decide) v s
  · exact hostRead_word (row := ⟨0x030, 16, .noncein⟩) (by decide) hi s
  · exact hostRead_word (row := ⟨0x040, 16, .constin⟩) (by decide) hi s
  · exact hostRead_word (row := ⟨0x050, 16, .noncecur⟩) (by decide) hi s
  · exact hostWrite_word (row := ⟨0x080, 64, .din⟩) (by decide) hi (by decide) v s
  · exact hostRead_word (row := ⟨0x080, 64, .din⟩) (by decide) hi s
  · exact hostRead_word (row := ⟨0x0C0, 64, .dout⟩) (by decide) hi s
  · exact hostRead_word (row := ⟨0x100, 64, .out⟩) (by decide) hi s

/-! ### What a read does not reveal -/

/-- No register a read shows depends on keys, keystream or working words (R41, R53). -/
theorem readReg_withSecrets (name : RegName) (i : Nat) (s : State) (k0 k1 : Bytes 16) (b : Bytes 64) (key : Bytes 32)
    (x j : Words) : readReg name i (withSecrets s k0 k1 b key x j) = readReg name i s := by
  cases name <;> rfl

/-- Settles O54: whether a read stops depends on the offset and width alone, and the word it returns on no secret. -/
theorem hostReadsRevealNoSecret : Obligations.HostReadsRevealNoSecret := by
  intro off n s k0 k1 b key x j
  by_cases ha : alignedWord off n = true
  · cases hr : regAt off with
    | none =>
      rw [hostRead_of_unmapped ha hr, hostRead_of_unmapped ha hr]
      exact ⟨fun _ h => (by cases h), fun _ h => h, fun _ h => (by cases h)⟩
    | some reg =>
      obtain ⟨name, i⟩ := reg
      obtain ⟨rfl, -⟩ := (alignedWord_iff off n).1 ha
      rw [hostRead_of_regAt s ha hr, hostRead_of_regAt _ ha hr, readReg_withSecrets]
      refine ⟨fun t h => ?_, nofun, nofun⟩
      injection h with h
      rw [← h]
      rfl
  · rw [hostRead_of_not_aligned ha, hostRead_of_not_aligned ha]
    exact ⟨fun _ h => (by cases h), fun _ h => (by cases h), fun _ h => h⟩

end Sys2Proof.Proofs
end

section
/-! PROOFS. Rules about every step: scripts inside the interface run on, a dead session is read by no command, and what can
change a session's key (R50 (6), R54, R74, R75). -/

namespace Sys2Proof.Proofs

open Sys2Proof Sys2Proof.Machine Sys2Proof.Claims

/-! ### Scripts inside the interface -/

theorem runCommand_keeps_script {w : Word} {s t : State} (h : runCommand w s = .next t) : t.script = s.script := by
  obtain ⟨i, -, hexec⟩ | ⟨e, -, rfl⟩ := runCommand_cases h
  · obtain ⟨⟨-, -, -, -, hscript, -⟩, -⟩ := commandsWriteOnlyTheirRegisters i s t hexec
    exact hscript
  · rfl

/-- Nothing the host does to the core changes what it does next (R108; log 6). -/
theorem hostOp_keeps_script {op : HostOp} {s t : State} (h : hostOp op s = .next t) : t.script = s.script := by
  cases op with
  | reset => injection h with h; rw [← h]; rfl
  | write off n v =>
    obtain ⟨-, ⟨_, -, hrun⟩ | ⟨name, i, -, -, rfl⟩⟩ := hostWrite_cases h
    · exact runCommand_keeps_script hrun
    · rw [writeReg_frame]
  | read off n =>
    obtain ⟨-, name, i, -, rfl⟩ := hostRead_cases h
    rfl

theorem hostOp_isNext {op : HostOp} (h : inInterface op = true) (s : State) : ∃ t, hostOp op s = .next t := by
  cases op with
  | reset => exact ⟨_, rfl⟩
  | write off n v =>
    obtain ⟨ha, hr⟩ := Bool.and_eq_true_iff.1 h
    exact hostWrite_isNext ha hr v s
  | read off n =>
    obtain ⟨ha, hr⟩ := Bool.and_eq_true_iff.1 h
    exact hostRead_isNext ha hr s

/-- A step from a script inside the interface completes and leaves a script inside it. -/
theorem step_isNext_of_scriptInInterface {s : State} (h : scriptInInterface s = true) :
    ∃ t, step s = .next t ∧ scriptInInterface t = true := by
  cases hs : s.script with
  | nil => exact ⟨s, by rw [step, hostStep, hs], h⟩
  | cons op rest =>
    rw [scriptInInterface, hs, List.all_cons, Bool.and_eq_true_iff] at h
    obtain ⟨hop, hrest⟩ := h
    obtain ⟨t, ht⟩ := hostOp_isNext hop { s with script := rest }
    refine ⟨t, (step_of_script hs).trans ht, ?_⟩
    rw [scriptInInterface, hostOp_keeps_script ht]
    exact hrest

/-- Settles O56, by induction on the number of steps. -/
theorem interfaceScriptsNeverStop : Obligations.InterfaceScriptsNeverStop := by
  intro s k h
  induction k generalizing s with
  | zero => exact ⟨s, rfl⟩
  | succ k ih =>
    obtain ⟨s', hstep, hs'⟩ := step_isNext_of_scriptInInterface h
    rw [run_succ_of_step hstep]
    exact ih s' hs'

/-! ### A dead session -/

/-- Settles O45: without a session NEXT and XOR are refused, BLOCK and a refusal carry the session registers along unread, and
a completed INIT overwrites them all. -/
theorem deadSessionIsReadByNoCommand : Obligations.DeadSessionIsReadByNoCommand := by
  intro i s t k0 k1 n c k b r hdead h
  have hchecks : commandError i (withSession s k0 k1 n c k b r) = commandError i s := by cases i <;> rfl
  obtain ⟨e, he, rfl⟩ | ⟨he, rfl⟩ := exec_cases h
  · have hstill : (raise e s).valid = false := by rw [raise_valid, hdead, Bool.false_and]
    rw [exec_of_commandError (hchecks.trans he), hstill]
    rfl
  · rw [exec_of_checksPass (hchecks.trans he)]
    cases i with
    | initStd klen => rfl
    | initCustom klen clen => rfl
    | next => simp [commandError, hdead] at he
    | xor lenIn lenOut => simp [commandError, hdead] at he
    | block raw =>
      have hstill : (complete (commandEffect (.block raw) s)).valid = false := hdead
      rw [hstill]
      rfl

/-! ### The session key -/

/-- The keys, the constant selector, the counter length and the nonce outside the counter region are as before. -/
def keepsSessionKey (s t : State) : Prop :=
  t.key0 = s.key0 ∧ t.key1 = s.key1 ∧ t.k256 = s.k256 ∧ t.clen = s.clen ∧
    ∀ i, s.clen.toNat ≤ i → byteAt t.nonce i = byteAt s.nonce i

theorem keepsSessionKey_of_sameSession {s t : State} (h : sameSession s t) : keepsSessionKey s t := by
  obtain ⟨hkey0, hkey1, hnonce, hclen, hk256, -, -, -⟩ := h
  exact ⟨hkey0.symm, hkey1.symm, hk256.symm, hclen.symm, fun i _ => by rw [hnonce]⟩

theorem keepsSessionKey_raise (e : ErrCode) (s : State) : keepsSessionKey s (raise e s) :=
  ⟨rfl, rfl, rfl, rfl, fun _ _ => rfl⟩

/-- XOR changes the nonce by increments only (R54). -/
theorem keepsSessionKey_xorLoop (n i : Nat) (s : State) : keepsSessionKey s (xorLoop n i s) := by
  obtain ⟨-, -, hnonce, -⟩ := sameSession_xorLoop n i s
  refine ⟨xorLoop_key0 n i s, xorLoop_key1 n i s, xorLoop_k256 n i s, xorLoop_clen n i s, fun k hk => ?_⟩
  rw [hnonce, afterStream_nonce]
  exact byteAt_iterate_incr_outside s.nonce _ hk

/-- A command that is not a completed INIT keeps the session key. -/
theorem exec_keepsSessionKey_or_init {i : Instr} {s t : State} (h : exec i s = .next t) :
    keepsSessionKey s t ∨
    t.valid = true ∧ t.err = 0 ∧ ((∃ k, i = .initStd k) ∨ ∃ k c, i = .initCustom k c) := by
  obtain ⟨e, -, rfl⟩ | ⟨-, rfl⟩ := exec_cases h
  · exact .inl (keepsSessionKey_raise e s)
  · cases i with
    | initStd klen => exact .inr ⟨rfl, rfl, .inl ⟨klen, rfl⟩⟩
    | initCustom klen clen => exact .inr ⟨rfl, rfl, .inr ⟨klen, clen, rfl⟩⟩
    | next => exact .inl ⟨rfl, rfl, rfl, rfl, fun _ hi => byteAt_incr_outside s.nonce hi⟩
    | xor lenIn lenOut => exact .inl (keepsSessionKey_xorLoop lenIn 0 s)
    | block raw => exact .inl ⟨rfl, rfl, rfl, rfl, fun _ _ => rfl⟩

/-- A host write keeps the session key unless it is the `CMD` write of an INIT that completes. -/
theorem hostWrite_keepsSessionKey_or_init {off : Offset} {n : Nat} {v : Word} {s t : State}
    (h : hostWrite off n v s = .next t) : keepsSessionKey s t ∨ endsOrStartsSession (.write off n v) t := by
  obtain ⟨ha, ⟨_, hr, hrun⟩ | ⟨name, i, -, -, rfl⟩⟩ := hostWrite_cases h
  · obtain ⟨i, hd, hexec⟩ | ⟨e, -, rfl⟩ := runCommand_cases hrun
    · obtain ⟨rfl, rfl⟩ := regAt_cmd ha hr
      exact (exec_keepsSessionKey_or_init hexec).imp id fun ⟨hvalid, herr, hinit⟩ =>
        .inr ⟨0, v, i, rfl, rfl, hd, hvalid, herr, hinit⟩
    · exact .inl (keepsSessionKey_raise .opcode s)
  · exact .inl (keepsSessionKey_of_sameSession (writeReg_sameSession name i v s))

/-- Settles O47, by the cases of a step; the script is no part of the session. -/
theorem onlyInitAndResetChangeTheSessionKey : Obligations.OnlyInitAndResetChangeTheSessionKey := by
  intro s t h
  obtain ⟨-, rfl⟩ | ⟨op, rest, hs, ⟨rfl, -⟩ | ⟨off, n, v, rfl, hw⟩ | ⟨off, n, -, hr⟩⟩ := step_cases h
  · exact .inl (keepsSessionKey_of_sameSession (sameSession_refl t))
  · exact .inr ⟨_, rest, hs, .inl rfl⟩
  · exact (hostWrite_keepsSessionKey_or_init hw).imp id fun hinit => ⟨_, rest, hs, hinit⟩
  · obtain ⟨-, name, i, -, rfl⟩ := hostRead_cases hr
    exact .inl (keepsSessionKey_of_sameSession (sameSession_refl s))

end Sys2Proof.Proofs
end

section
/-! PROOFS. The unroll factor of the sequencer, and the permutation as a bijection that the raw block inverts (R161, R186). -/

namespace Sys2Proof.Proofs

open Sys2Proof Sys2Proof.Machine Sys2Proof.Claims

/-! ### Rounds in a row -/

theorem roundsFrom_add (a b r : Nat) (x : Words) : roundsFrom r (a + b) x = roundsFrom (r + a) b (roundsFrom r a x) := by
  induction a generalizing r x with
  | zero => rw [Nat.zero_add]; rfl
  | succ a ih => rw [Nat.succ_add, roundsFrom, roundsFrom, ih, Nat.add_right_comm, Nat.add_assoc]

/-- `u` rounds per step for `steps` steps are `u * steps` rounds (R161). -/
theorem unrolledFrom_eq_roundsFrom (u r steps : Nat) (x : Words) : unrolledFrom u r steps x = roundsFrom r (u * steps) x := by
  induction steps generalizing r x with
  | zero => rfl
  | succ steps ih => rw [unrolledFrom, ih, Nat.mul_succ, Nat.add_comm (u * steps), roundsFrom_add]

/-- From an even round on, two rounds are a double round (R157). -/
theorem roundsFrom_even (k dr : Nat) (x : Words) : roundsFrom (2 * k) (2 * dr) x = perm dr x := by
  induction dr generalizing k x with
  | zero => rfl
  | succ dr ih =>
    have hcol : roundNo (2 * k) x = colRound x := if_pos (by omega)
    have hdiag (y : Words) : roundNo (2 * k + 1) y = diagRound y := if_neg (by omega)
    rw [Nat.mul_succ, roundsFrom, roundsFrom, hcol, hdiag, perm, ← ih (k + 1)]
    rfl

theorem roundsFrom_eq_permF (x : Words) : roundsFrom 0 (2 * Config.doubleRounds) x = permF x :=
  roundsFrom_even 0 Config.doubleRounds x

/-- Settles O15: the steps are the `2*DR` rounds in a row, cut where `U` says, and pairs of rounds are double rounds. -/
theorem unrollFactorIsUnobservable : Obligations.UnrollFactorIsUnobservable := by
  intro u x hu
  rw [permUnrolled, unrolledFrom_eq_roundsFrom, Nat.mul_div_cancel' hu, roundsFrom_eq_permF]

/-! ### The permutation is a bijection -/

/-- There are finitely many register banks, so an injective map on them is a bijection. -/
theorem finite_words : Finite Words :=
  Finite.of_injective (fun (x : Words) (i : Fin 16) => x[i]) fun _ _ h =>
    Vector.ext fun i hi => congrFun h ⟨i, hi⟩

theorem bijective_of_injective_words {f : Words → Words} (h : Function.Injective f) : Function.Bijective f :=
  have := finite_words
  Finite.injective_iff_bijective.1 h

/-- A map that is `QRF` on each of four lanes that partition the registers is a bijection (R152, R155). -/
theorem bijective_of_quadAt {lane : Fin 4 → Lane} (hlane : PartitionsRegisters lane) {f : Words → Words}
    (hf : ∀ x k, quadAt (lane k) (f x) = qrf (quadAt (lane k) x)) : Function.Bijective f :=
  bijective_of_injective_words fun x y hxy =>
    words_ext_of_quadAt hlane fun k => qrf_bijective.1 (by rw [← hf, ← hf, hxy])

theorem dblRound_bijective : Function.Bijective dblRound :=
  (bijective_of_quadAt diagLane_partitionsRegisters quadAt_diagRound).comp
    (bijective_of_quadAt colLane_partitionsRegisters quadAt_colRound)

theorem permF_bijective : Function.Bijective permF :=
  (funext permF_eq_iterate : permF = dblRound^[10]) ▸ dblRound_bijective.iterate 10

/-! ### The raw block determines its inputs -/

theorem wordAt_blockFnRaw (key0 key1 nonce constant : Bytes 16) {i : Nat} (hi : i < 16) :
    wordAt (blockFnRaw key0 key1 nonce constant) i = wordOf (permF (assemble key0 key1 nonce constant)) i := by
  rw [blockFnRaw, wordAt_serialize _ hi]

/-- The stored block determines the words (R184). -/
theorem serialize_injective : Function.Injective serialize := fun x y h => by
  apply Vector.ext
  intro i hi
  rw [← wordOf_eq_getElem x hi, ← wordOf_eq_getElem y hi, ← wordAt_serialize x hi, ← wordAt_serialize y hi, h]

/-- A byte of an array is a byte of the word it stands in (R15). -/
theorem byteAt_eq_byteAt_wordAt {n : Nat} (a : Bytes n) (i : Nat) {k : Nat} (hk : k < 4) :
    byteAt a (4 * i + k) = byteAt (st32 (wordAt a i)) k := by
  rw [wordAt, st32_le32]
  interval_cases k <;> rfl

/-- The words of an array determine it. -/
theorem bytes_ext_of_wordAt {n : Nat} {a b : Bytes n} (h : ∀ i, 4 * i < n → wordAt a i = wordAt b i) : a = b :=
  bytes_ext fun i hi => by
    rw [← Nat.div_add_mod i 4, byteAt_eq_byteAt_wordAt a _ (Nat.mod_lt i (by omega)),
      byteAt_eq_byteAt_wordAt b _ (Nat.mod_lt i (by omega)), h (i / 4) (by omega)]

/-- The matrix determines the four arrays it is assembled from (R180). -/
theorem assemble_inj {key0 key1 nonce constant key0' key1' nonce' constant' : Bytes 16}
    (h : assemble key0 key1 nonce constant = assemble key0' key1' nonce' constant') :
    key0 = key0' ∧ key1 = key1' ∧ nonce = nonce' ∧ constant = constant' := by
  have hword (i : Nat) (hi : i < 16) : wordAt (constant ++ key0 ++ key1 ++ nonce) i =
      wordAt (constant' ++ key0' ++ key1' ++ nonce') i := by
    rw [← wordOf_assemble _ _ _ _ hi, h, wordOf_assemble _ _ _ _ hi]
  have hall : constant ++ key0 ++ key1 ++ nonce = constant' ++ key0' ++ key1' ++ nonce' :=
    bytes_ext_of_wordAt fun i hi => hword i (by omega)
  obtain ⟨hrest, hnonce⟩ := Vector.append_inj hall
  obtain ⟨hrest', hkey1⟩ := Vector.append_inj hrest
  obtain ⟨hconstant, hkey0⟩ := Vector.append_inj hrest'
  exact ⟨hkey0, hkey1, hnonce, hconstant⟩

/-- Settles O19: each of serialisation, permutation and assembly can be undone. -/
theorem rawBlockDeterminesItsInputs : Obligations.RawBlockDeterminesItsInputs :=
  ⟨fun _ _ _ _ _ hi => wordAt_blockFnRaw _ _ _ _ hi, permF_bijective,
    fun _ _ _ _ _ _ _ _ h => assemble_inj (permF_bijective.1 (serialize_injective h))⟩

end Sys2Proof.Proofs
end

section
/-! PROOFS. The loading pseudo-operations of the script, run on the machine (R109). -/

namespace Sys2Proof.Proofs

open Sys2Proof Sys2Proof.Machine Sys2Proof.Claims

/-! ### The words of an array written in order -/

/-- Words `0` to `n - 1` of an array, written in order. -/
def putWords {m : Nat} (w : Nat → Word) (a : Bytes m) : Nat → Bytes m
  | 0 => a
  | n + 1 => putWord (putWords w a n) n (w n)

/-- Each byte below `4 * n` comes from its own word. -/
theorem byteAt_putWords {m : Nat} (w : Nat → Word) (a : Bytes m) (n : Nat) {k : Nat} (hk : k < m) :
    byteAt (putWords w a n) k = if k < 4 * n then byteAt (st32 (w (k / 4))) (k % 4) else byteAt a k := by
  induction n with
  | zero => rw [if_neg (by omega)]; rfl
  | succ n ih =>
    rw [putWords, byteAt_putWord, ih]
    by_cases hlast : 4 * n ≤ k
    · by_cases hin : k < 4 * n + 4
      · have hdiv : k / 4 = n := by omega
        have hmod : k % 4 = k - 4 * n := by omega
        rw [if_pos ⟨hlast, hin, hk⟩, if_pos (by omega), hdiv, hmod]
      · rw [if_neg (by omega), if_neg (by omega), if_neg (by omega)]
    · rw [if_neg (by omega), if_pos (by omega), if_pos (by omega)]

/-- The bytes of a word of a byte string (R109). -/
theorem byteAt_st32_hexWord (hex : List Byte) (i : Nat) {k : Nat} (hk : k < 4) :
    byteAt (st32 (hexWord hex i)) k = hexByte hex (4 * i + k) := by
  rw [hexWord, st32_le32]
  interval_cases k <;> rfl

/-- The words of a byte string put its bytes in order (R109). -/
theorem byteAt_putWords_hexWord {m : Nat} (hex : List Byte) (a : Bytes m) (n : Nat) {k : Nat} (hk : k < m) :
    byteAt (putWords (hexWord hex) a n) k = if k < 4 * n then hexByte hex k else byteAt a k := by
  rw [byteAt_putWords _ _ _ hk, byteAt_st32_hexWord hex _ (Nat.mod_lt k (by omega)), Nat.div_add_mod]

/-! ### The writes of a load -/

/-- Words `0` to `n - 1` of a register array, written by the host in order. -/
def writeWords (name : RegName) (w : Nat → Word) (s : State) : Nat → State
  | 0 => s
  | n + 1 => writeReg name n (w n) (writeWords name w s n)

/-- A load changes the staging array of its name only (R78). -/
theorem writeWords_eq (name : RegName) (w : Nat → Word) (s : State) (n : Nat) :
    writeWords name w s n = { s with
      keyin := if name = .keyin then putWords w s.keyin n else s.keyin
      noncein := if name = .noncein then putWords w s.noncein n else s.noncein
      constin := if name = .constin then putWords w s.constin n else s.constin
      din := if name = .din then putWords w s.din n else s.din } := by
  induction n with
  | zero => simp only [writeWords, putWords, ite_self]
  | succ n ih =>
    rw [writeWords, ih]
    cases name <;> simp [writeReg, putWords]

theorem writeWords_keyin (w : Nat → Word) (s : State) (n : Nat) :
    writeWords .keyin w s n = { s with keyin := putWords w s.keyin n } := by
  simp [writeWords_eq]

theorem writeWords_noncein (w : Nat → Word) (s : State) (n : Nat) :
    writeWords .noncein w s n = { s with noncein := putWords w s.noncein n } := by
  simp [writeWords_eq]

theorem writeWords_din (w : Nat → Word) (s : State) (n : Nat) :
    writeWords .din w s n = { s with din := putWords w s.din n } := by
  simp [writeWords_eq]

/-- A register write neither reads nor writes the script. -/
theorem writeReg_withScript (name : RegName) (i : Nat) (v : Word) (s : State) (ops : List HostOp) :
    writeReg name i v (s.withScript ops) = (writeReg name i v s).withScript ops := by
  cases name <;> rfl

theorem loadWords_succ_append (base : Nat) (hex : List Byte) (n : Nat) (rest : List HostOp) :
    loadWords base hex (n + 1) ++ rest = loadWords base hex n ++ opWrite (base + 4 * n) (hexWord hex n) :: rest := by
  simp [loadWords, List.range_succ]

theorem step_withScript (s : State) (op : HostOp) (rest : List HostOp) :
    step (s.withScript (op :: rest)) = hostOp op (s.withScript rest) := step_of_script rfl

/-- `n` steps perform the `n` writes of a load, by induction on the writes (R108, R109). -/
theorem run_loadWords {row : MapRow} (hrow : row ∈ registerMap) (hname : row.name ≠ .cmd) {n : Nat}
    (hn : n ≤ row.size / 4) (s : State) (hex : List Byte) (rest : List HostOp) :
    run n (s.withScript (loadWords row.base hex n ++ rest)) =
      .next ((writeWords row.name (hexWord hex) s n).withScript rest) := by
  induction n generalizing rest with
  | zero => rfl
  | succ n ih =>
    rw [loadWords_succ_append, run_add (ih (by omega) _)]
    refine run_succ_of_step ((step_withScript _ _ rest).trans ?_)
    refine (hostWrite_word hrow (by omega) hname _ _).trans ?_
    rw [writeReg_withScript, writeWords]

/-- Settles O57: each load is a run of writes to one array, whose words put the bytes of the string in order. -/
theorem loadPseudoOperations : Obligations.LoadPseudoOperations := by
  refine ⟨fun s hex rest hlen => ?_, fun s hex rest hlen => ?_, fun s hex rest hlen => ?_⟩
  · have hwords : hex.length / 4 ≤ 32 / 4 := by omega
    have hrun := run_loadWords (row := ⟨0x010, 32, .keyin⟩) (by decide) (by decide) hwords s hex rest
    rw [writeWords_keyin] at hrun
    refine ⟨_, hrun, rfl, fun i hi => (byteAt_putWords_hexWord hex s.keyin _ hi).trans ?_⟩
    rw [Nat.mul_div_cancel' (by omega)]
  · have hwords : hex.length / 4 ≤ 16 / 4 := by omega
    have hrun := run_loadWords (row := ⟨0x030, 16, .noncein⟩) (by decide) (by decide) hwords s hex rest
    rw [writeWords_noncein] at hrun
    refine ⟨_, hrun, rfl, fun i hi => (byteAt_putWords_hexWord hex s.noncein _ hi).trans ?_⟩
    rw [Nat.mul_div_cancel' (by omega)]
  · have hwords : (hex.length + 3) / 4 ≤ 64 / 4 := by omega
    have hrun := run_loadWords (row := ⟨0x080, 64, .din⟩) (by decide) (by decide) hwords s hex rest
    rw [writeWords_din] at hrun
    exact ⟨_, hrun, rfl, fun i hi => byteAt_putWords_hexWord hex s.din _ hi⟩

end Sys2Proof.Proofs
end

section
/-! PROOFS. The phase `ROUND` of the sequencer: eighty quarter-rounds, lane after lane, which are the permutation; and BLOCK,
the command that is one such pass (R40, R158, R160). -/

namespace Sys2Proof.Proofs

open Sys2Proof Sys2Proof.Machine Sys2Proof.Claims

/-! ### Quarter-rounds in the order of the sequencer -/

/-- The first `n` quarter-rounds: number `n` runs lane `n mod 4` of round `n / 4` (R40). -/
def quarterRounds : Nat → Words → Words
  | 0, x => x
  | n + 1, x => qrLane (laneOf (n / 4) (Fin.ofNat 4 n)) (quarterRounds n x)

/-- A round is its four lanes in order (R153 to R155). -/
theorem roundNo_eq_lanes (r : Nat) (x : Words) :
    roundNo r x = qrLane (laneOf r 3) (qrLane (laneOf r 2) (qrLane (laneOf r 1) (qrLane (laneOf r 0) x))) := by
  unfold roundNo laneOf
  split
  · rfl
  · rfl

/-- Four quarter-rounds are a round. -/
theorem quarterRounds_round (r : Nat) (x : Words) :
    quarterRounds (4 * (r + 1)) x = roundNo r (quarterRounds (4 * r) x) := by
  have hround (k : Nat) (hk : k < 4) : (4 * r + k) / 4 = r := by omega
  have hlane (k : Nat) : Fin.ofNat 4 (4 * r + k) = Fin.ofNat 4 k := Fin.ext (by simp)
  rw [Nat.mul_succ, roundNo_eq_lanes]
  simp only [quarterRounds]
  rw [hround 3 (by omega), hround 2 (by omega), hround 1 (by omega), hlane 3, hlane 2, hlane 1,
    Nat.mul_div_cancel_left r (by omega), show Fin.ofNat 4 (4 * r) = 0 from hlane 0]
  rfl

theorem quarterRounds_eq_roundsFrom (r : Nat) (x : Words) : quarterRounds (4 * r) x = roundsFrom 0 r x := by
  induction r with
  | zero => rfl
  | succ r ih =>
    rw [quarterRounds_round, ih, roundsFrom_add, Nat.zero_add]
    rfl

/-- Eighty quarter-rounds are the permutation (R157, R161). -/
theorem quarterRounds_eighty (x : Words) : quarterRounds 80 x = permF x :=
  (quarterRounds_eq_roundsFrom 20 x).trans (roundsFrom_eq_permF x)

/-! ### The phase `ROUND` -/

/-- The state after `n` quarter-rounds of a block that was assembled in `s` (R40). -/
def inRound (n : Nat) (s : State) : State :=
  { s with x := quarterRounds n s.x, r := Fin.ofNat 20 (n / 4), q := Fin.ofNat 4 n, phase := .round }

/-- The phase `ROUND` changes the working words and the indices only. -/
theorem seqRound_frame (i : Instr) (s : State) : seqRound i s = { s with
    x := (seqRound i s).x, q := (seqRound i s).q, r := (seqRound i s).r, phase := (seqRound i s).phase } := by
  unfold seqRound
  dsimp only
  repeat' split
  all_goals rfl

/-- Quarter-round `n` runs on the first `n`. -/
theorem seqRound_inRound_x (i : Instr) {n : Nat} (hn : n < 80) (s : State) :
    (seqRound i (inRound n s)).x = quarterRounds (n + 1) s.x := by
  have hround : (inRound n s).r.val = n / 4 := Nat.mod_eq_of_lt (by omega)
  rw [seqRound_x, hround, quarterRounds]
  rfl

/-- How the indices count: lane after lane, and the next round after lane 3. -/
theorem roundIndices_succ : ∀ n < 79,
    Fin.ofNat 4 n + 1 = Fin.ofNat 4 (n + 1) ∧
    (if Fin.ofNat 4 n = 3 ∧ Fin.ofNat 20 (n / 4) ≠ 19 then Fin.ofNat 20 (n / 4) + 1 else Fin.ofNat 20 (n / 4)) =
      Fin.ofNat 20 ((n + 1) / 4) ∧
    ¬ (Fin.ofNat 4 n = 3 ∧ Fin.ofNat 20 (n / 4) = 19) := by
  decide

/-- Up to quarter-round 78 the phase goes on. -/
theorem seqRound_inRound (i : Instr) {n : Nat} (hn : n < 79) (s : State) : seqRound i (inRound n s) = inRound (n + 1) s := by
  obtain ⟨hlane, hround, hmore⟩ := roundIndices_succ n hn
  have hq : (seqRound i (inRound n s)).q = Fin.ofNat 4 (n + 1) := (seqRound_q i _).trans hlane
  have hr : (seqRound i (inRound n s)).r = Fin.ofNat 20 ((n + 1) / 4) := (seqRound_r i _).trans hround
  have hphase : (seqRound i (inRound n s)).phase = .round := (seqRound_phase i rfl).trans (if_neg hmore)
  rw [seqRound_frame, seqRound_inRound_x i (by omega), hq, hr, hphase]
  rfl

/-- The state when the last quarter-round is done (R40). -/
def afterRounds (i : Instr) (s : State) : State :=
  { s with x := permF s.x, r := 19, q := 0, phase := if skipsFeedForward i then .serialize else .feedfwd }

/-- Quarter-round 79 ends the phase. -/
theorem seqRound_inRound_last (i : Instr) (s : State) : seqRound i (inRound 79 s) = afterRounds i s := by
  have hq : (seqRound i (inRound 79 s)).q = 0 :=
    (seqRound_q i _).trans (show Fin.ofNat 4 79 + 1 = 0 by decide)
  have hr : (seqRound i (inRound 79 s)).r = 19 := seqRound_r i _
  have hphase : (seqRound i (inRound 79 s)).phase = if skipsFeedForward i then .serialize else .feedfwd :=
    seqRound_phase i rfl
  rw [seqRound_frame, seqRound_inRound_x i (by omega), quarterRounds_eighty, hq, hr, hphase]
  simp only [inRound, afterRounds]

/-- In the phase `ROUND` each step of the sequencer is one quarter-round. -/
theorem seqRun_inRound (i : Instr) (s : State) (b : Nat) {n : Nat} (hn : n < 80) :
    seqRun i n ⟨inRound 0 s, b⟩ = ⟨inRound n s, b⟩ := by
  induction n with
  | zero => rfl
  | succ n ih =>
    rw [seqRun_succ, ih (by omega), seqStep_round i rfl]
    exact congrArg (Running.mk · b) (seqRound_inRound i (by omega) s)

/-- Eighty steps run the whole phase. -/
theorem seqRun_rounds (i : Instr) (s : State) (b : Nat) : seqRun i 80 ⟨inRound 0 s, b⟩ = ⟨afterRounds i s, b⟩ := by
  rw [seqRun_succ, seqRun_inRound i s b (by omega), seqStep_round i rfl]
  exact congrArg (Running.mk · b) (seqRound_inRound_last i s)

/-! ### Assembly and the command BLOCK -/

/-- The state with the input words of the command's block loaded (R180). -/
def assembled (i : Instr) (s : State) : State := { s with j := seqInput i s, x := seqInput i s }

/-- The phase `ASSEMBLE` goes on to quarter-round 0 (R40). -/
theorem seqStep_assemble (i : Instr) (s : State) (b : Nat) :
    seqStep i ⟨enter .assemble s, b⟩ = ⟨inRound 0 (assembled i s), b⟩ := rfl

/-- From `ASSEMBLE` on, 81 steps compute the permutation of the input words. -/
theorem seqRun_assemble (i : Instr) (s : State) (b : Nat) :
    seqRun i 81 ⟨enter .assemble s, b⟩ = ⟨afterRounds i (assembled i s), b⟩ := by
  rw [seqRun, seqStep_assemble, seqRun_rounds]

/-- After its check BLOCK assembles its operands (R189). -/
theorem seqStep_block_start (raw : Bool) (s : State) :
    seqStep (.block raw) (seqStart s) = ⟨enter .assemble s, 0⟩ := rfl

/-- From step 2 on, BLOCK runs its quarter-rounds. -/
theorem seqRun_block_inRound (raw : Bool) (s : State) {k : Nat} (hk : k < 80) :
    seqRun (.block raw) (2 + k) (seqStart s) = ⟨inRound k (assembled (.block raw) s), 0⟩ := by
  have hstart : seqRun (.block raw) 2 (seqStart s) = ⟨inRound 0 (assembled (.block raw) s), 0⟩ := rfl
  rw [seqRun_add, hstart, seqRun_inRound _ _ _ hk]

theorem seqRun_block_rounds (raw : Bool) (s : State) :
    seqRun (.block raw) 82 (seqStart s) = ⟨afterRounds (.block raw) (assembled (.block raw) s), 0⟩ := by
  rw [seqRun, seqStep_block_start, seqRun_assemble]

/-- The steps BLOCK takes: RAW skips the feed-forward (R186). -/
def blockSteps (raw : Bool) : Nat := if raw then 83 else 84

/-- BLOCK ends with the transform of its operands in `OUT`, after the feed-forward unless `RAW` is set (R189). -/
theorem seqRun_block (raw : Bool) (s : State) :
    seqRun (.block raw) (blockSteps raw) (seqStart s) =
      ⟨complete { afterRounds (.block raw) (assembled (.block raw) s) with
        x := if raw then permF (seqInput (.block raw) s)
          else feedForward (seqInput (.block raw) s) (permF (seqInput (.block raw) s))
        out := stagedBlock raw s }, 0⟩ := by
  cases raw with
  | true =>
    rw [blockSteps, if_pos rfl, seqRun_succ, seqRun_block_rounds]
    rfl
  | false =>
    rw [blockSteps, if_neg (by decide), seqRun_succ, seqRun_succ, seqRun_block_rounds]
    rfl

/-- Once it has ended BLOCK is in `IDLE`. -/
theorem seqRun_block_idle (raw : Bool) (s : State) {n : Nat} (hn : blockSteps raw ≤ n) :
    (seqRun (.block raw) n (seqStart s)).core.phase = .idle := by
  obtain ⟨k, rfl⟩ := Nat.exists_eq_add_of_le hn
  rw [seqRun_add, seqRun_block, seqRun_idle _ _ rfl]
  rfl

/-- After its quarter-rounds BLOCK is in `FEEDFWD`, `SERIALIZE` or `IDLE`. -/
theorem seqRun_block_phase_after (raw : Bool) (s : State) {n : Nat} (hn : 82 ≤ n) :
    (seqRun (.block raw) n (seqStart s)).core.phase ≠ .round := by
  by_cases hend : blockSteps raw ≤ n
  · rw [seqRun_block_idle raw s hend]
    decide
  · cases raw with
    | true =>
      obtain rfl : n = 82 := by simp [blockSteps] at hend; omega
      rw [seqRun_block_rounds]
      exact (by decide : Phase.serialize ≠ .round)
    | false =>
      obtain rfl | rfl : n = 82 ∨ n = 83 := by simp [blockSteps] at hend; omega
      · rw [seqRun_block_rounds]
        exact (by decide : Phase.feedfwd ≠ .round)
      · rw [seqRun_succ, seqRun_block_rounds]
        exact (by decide : Phase.serialize ≠ .round)

/-- Settles O59: two steps lead into the phase, `inRound` is the state after each quarter-round, and none of the phases
after it leads back. -/
theorem blockTakesEightyQuarterRounds : Obligations.BlockTakesEightyQuarterRounds := by
  intro raw s
  refine ⟨fun n => ⟨fun hround => ?_, fun ⟨hlo, hhi⟩ => ?_⟩, fun n hlo hhi => ?_, seqRun_block_idle raw s le_rfl⟩
  · refine ⟨?_, Nat.lt_of_not_le fun hn => seqRun_block_phase_after raw s hn hround⟩
    by_contra hlo
    obtain rfl | rfl : n = 0 ∨ n = 1 := by omega
    · cases hround
    · cases hround
  · obtain ⟨k, rfl⟩ := Nat.exists_eq_add_of_le hlo
    rw [seqRun_block_inRound raw s (by omega)]
    rfl
  · obtain ⟨k, rfl⟩ := Nat.exists_eq_add_of_le hlo
    have hk : k < 80 := by omega
    rw [seqRun_succ, seqRun_block_inRound raw s hk, seqStep_round _ rfl, Nat.add_sub_cancel_left]
    exact seqRound_inRound_x (.block raw) hk _

end Sys2Proof.Proofs
end

section
/-! PROOFS. The sequencer computes every command: production of a session block, the counter byte by byte, the XOR loop (R40,
R160, R230, R251, R253). -/

namespace Sys2Proof.Proofs

open Sys2Proof Sys2Proof.Machine Sys2Proof.Claims

/-! ### Where a run of the sequencer ends -/

/-- Within a number of steps the sequencer reaches the architectural state of `t` (log 8). -/
def reachesWithin (i : Instr) (bound : Nat) (m : Running) (t : State) : Prop :=
  ∃ k ≤ bound, (seqRun i k m).core.architectural = t.architectural

theorem reachesWithin_of_run {i : Instr} {k bound total : Nat} {m m' : Running} {t : State} (hrun : seqRun i k m = m')
    (h : reachesWithin i bound m' t) (htotal : k + bound ≤ total) : reachesWithin i total m t := by
  obtain ⟨k', hk', ht⟩ := h
  exact ⟨k + k', by omega, by rw [seqRun_add, hrun, ht]⟩

theorem reachesWithin_refl (i : Instr) (bound : Nat) (m : Running) : reachesWithin i bound m m.core :=
  ⟨0, Nat.zero_le bound, rfl⟩

theorem reachesWithin_congr {i : Instr} {bound : Nat} {m : Running} {t t' : State} (h : reachesWithin i bound m t)
    (ht : t.architectural = t'.architectural) : reachesWithin i bound m t' := by
  obtain ⟨k, hk, hreach⟩ := h
  exact ⟨k, hk, hreach.trans ht⟩

/-! ### The counter, one byte per step -/

/-- Where the phase `INCR` leads (R40). -/
def afterIncr (i : Instr) (b : Nat) (s : State) : State :=
  match i with
  | .xor len _ => xorContinue len b s
  | .next => complete s
  | .initStd _ => s
  | .initCustom _ _ => s
  | .block _ => s

/-- One step of `INCR`: the carry goes on, or the phase ends (R230). -/
theorem seqIncr_eq (i : Instr) (s : State) (b : Nat) :
    seqIncr i ⟨s, b⟩ =
      if byteAt s.nonce s.ci + 1 = 0 ∧ s.ci.val + 1 < s.clen.toNat then
        { s with nonce := putByte s.nonce s.ci (byteAt s.nonce s.ci + 1), ci := s.ci + 1 }
      else afterIncr i b { s with nonce := putByte s.nonce s.ci (byteAt s.nonce s.ci + 1) } := by
  cases i <;> rfl

theorem seqStep_incr (i : Instr) {s : State} (hphase : s.phase = .incr) (b : Nat) :
    seqStep i ⟨s, b⟩ = ⟨seqIncr i ⟨s, b⟩, b⟩ := by
  rw [seqStep, hphase]

/-- From byte `ci` of the counter on, the phase does the rest of `INCR`, at most one step per byte (R230, R234). -/
theorem seqRun_incrFrom (i : Instr) (b : Nat) {d : Nat} {s : State} (hphase : s.phase = .incr)
    (hd : s.ci.val + (d + 1) = s.clen.toNat) (hclen : s.clen.toNat ≤ 16) :
    ∃ k ≤ d + 1, ∃ ci, seqRun i k ⟨s, b⟩ =
      ⟨afterIncr i b { s with nonce := incrFrom s.nonce s.ci (d + 1), ci := ci }, b⟩ := by
  by_cases hcarry : byteAt s.nonce s.ci + 1 = 0 ∧ s.ci.val + 1 < s.clen.toNat
  · obtain ⟨hwrap, hmore⟩ := hcarry
    cases d with
    | zero => omega
    | succ d =>
      have hci : (s.ci + 1).val = s.ci.val + 1 := Fin.val_add_one_of_lt' (by omega)
      obtain ⟨k, hk, ci, hrun⟩ := seqRun_incrFrom i b (d := d)
        (s := { s with nonce := putByte s.nonce s.ci (byteAt s.nonce s.ci + 1), ci := s.ci + 1 })
        hphase (by simp only [hci]; omega) hclen
      refine ⟨k + 1, by omega, ci, ?_⟩
      rw [seqRun, seqStep_incr i hphase, seqIncr_eq, if_pos ⟨hwrap, hmore⟩, hrun]
      simp only [hci, incrFrom, hwrap, if_true]
  · refine ⟨1, by omega, s.ci, ?_⟩
    have hlast : incrFrom s.nonce s.ci (d + 1) = putByte s.nonce s.ci (byteAt s.nonce s.ci + 1) := by
      by_cases hwrap : byteAt s.nonce s.ci + 1 = 0
      · obtain rfl : d = 0 := by
          have hend : ¬ s.ci.val + 1 < s.clen.toNat := fun hmore => hcarry ⟨hwrap, hmore⟩
          omega
        rw [incrFrom, if_pos hwrap, incrFrom]
      · rw [incrFrom, if_neg hwrap]
    rw [seqRun, seqRun, seqStep_incr i hphase, seqIncr_eq, if_neg hcarry, hlast]

/-- From its first byte on, the phase does `INCR` in at most 16 steps. -/
theorem seqRun_incr (i : Instr) (b : Nat) {s : State} (hphase : s.phase = .incr) (hci : s.ci = 0)
    (hclen : 1 ≤ s.clen.toNat ∧ s.clen.toNat ≤ 16) :
    ∃ k ≤ 16, ∃ ci, seqRun i k ⟨s, b⟩ =
      ⟨afterIncr i b { s with nonce := incr s.nonce s.clen.toNat, ci := ci }, b⟩ := by
  obtain ⟨hpos, hle⟩ := hclen
  obtain ⟨d, hd⟩ := Nat.exists_eq_add_of_le' hpos
  have hfirst : s.ci.val = 0 := by rw [hci]; rfl
  obtain ⟨k, hk, ci, hrun⟩ := seqRun_incrFrom i b (d := d) hphase (by omega) hle
  rw [hfirst, ← hd] at hrun
  exact ⟨k, by omega, ci, hrun⟩

/-! ### The production of a session block -/

/-- The working registers after the feed-forward (R183). -/
def fedForward (i : Instr) (s : State) : State :=
  { s with
    j := seqInput i s
    x := feedForward (seqInput i s) (permF (seqInput i s))
    r := 19
    q := 0
    phase := .serialize }

/-- From `ASSEMBLE` on, 82 steps of a command with feed-forward lead to `SERIALIZE` (R40). -/
theorem seqRun_feedForward {i : Instr} (hi : skipsFeedForward i = false) (s : State) (b : Nat) :
    seqRun i 82 ⟨enter .assemble s, b⟩ = ⟨fedForward i s, b⟩ := by
  have hphase : (afterRounds i (assembled i s)).phase = .feedfwd := by rw [afterRounds, hi]; rfl
  rw [seqRun_succ, seqRun_assemble, seqStep, hphase]
  simp only [seqFeedForward, afterRounds, assembled, fedForward]

/-- The words of NEXT and XOR after the feed-forward are stored as the session's block (R235). -/
theorem serialize_fedForward {i : Instr} {s : State}
    (hi : seqInput i s = assemble s.key0 s.key1 s.nonce (constOf s.k256)) :
    serialize (fedForward i s).x = producedBlock s := by
  rw [fedForward, hi, producedBlock, blockFn]

/-- NEXT puts the block into `OUT` and goes on to the counter (R236). -/
theorem seqRun_next_serialize (s : State) (b : Nat) :
    seqRun .next 83 ⟨enter .assemble s, b⟩ =
      ⟨{ fedForward .next s with out := producedBlock s, ci := 0, phase := .incr }, b⟩ := by
  rw [seqRun_succ, seqRun_feedForward rfl, ← serialize_fedForward (i := .next) rfl]
  rfl

/-- XOR puts the block into `buf` and goes on to the counter (R251). -/
theorem seqRun_xor_serialize (len lenOut : Nat) (s : State) (b : Nat) :
    seqRun (.xor len lenOut) 83 ⟨enter .assemble s, b⟩ =
      ⟨{ fedForward (.xor len lenOut) s with buf := producedBlock s, rem := 64, ci := 0, phase := .incr }, b⟩ := by
  rw [seqRun_succ, seqRun_feedForward rfl, ← serialize_fedForward (i := .xor len lenOut) rfl]
  rfl

/-- From `ASSEMBLE` on, NEXT takes 83 steps and those of the counter. -/
theorem reachesWithin_next {s : State} (hclen : 1 ≤ s.clen.toNat ∧ s.clen.toNat ≤ 16) (b : Nat) :
    reachesWithin .next 99 ⟨enter .assemble s, b⟩ (complete (commandEffect .next s)) := by
  obtain ⟨k, hk, ci, hrun⟩ := seqRun_incr .next b
    (s := { fedForward .next s with out := producedBlock s, ci := 0, phase := .incr }) rfl rfl
    (by simpa only [fedForward] using hclen)
  refine ⟨83 + k, by omega, ?_⟩
  rw [seqRun_add, seqRun_next_serialize, hrun]
  simp only [afterIncr, commandEffect, fedForward, complete, afterProduce, releaseWork, State.architectural]

/-- When no byte is left, XOR refills the buffer and goes on with the same byte index (R251). -/
theorem seqRun_xor_refill (len lenOut i : Nat) {s : State} (hrem : s.rem = 0)
    (hclen : 1 ≤ s.clen.toNat ∧ s.clen.toNat ≤ 16) :
    ∃ k ≤ 99, ∃ t, t.architectural = (refill s).architectural ∧
      seqRun (.xor len lenOut) k ⟨enter .assemble s, i⟩ = ⟨xorContinue len i t, i⟩ := by
  obtain ⟨k, hk, ci, hrun⟩ := seqRun_incr (.xor len lenOut) i
    (s := { fedForward (.xor len lenOut) s with buf := producedBlock s, rem := 64, ci := 0, phase := .incr })
    rfl rfl (by simpa only [fedForward] using hclen)
  refine ⟨83 + k, by omega, { fedForward (.xor len lenOut) s with
    buf := producedBlock s, rem := 64, ci := ci, nonce := incr s.nonce s.clen.toNat, phase := s.phase }, ?_, ?_⟩
  · rw [refill_of_rem_eq_zero hrem]
    simp only [fedForward, afterProduce, releaseWork, State.architectural]
  · rw [seqRun_add, seqRun_xor_serialize, hrun]
    simp only [afterIncr, xorContinue, complete, enter, fedForward]

/-! ### The XOR loop -/

/-- One step of `XORBYTE` is one round of the loop with a byte from the buffer (R253). -/
theorem seqStep_xorbyte (len lenOut i : Nat) {s : State} (hrem : s.rem ≠ 0) :
    seqStep (.xor len lenOut) ⟨enter .xorbyte s, i⟩ = ⟨xorContinue len (i + 1) (xorByte i s), i + 1⟩ := by
  simp only [xorByte, afterTake, takenByte, refill_of_rem_ne_zero hrem]
  rfl

/-- A round of the loop starts by refilling the buffer (R251). -/
theorem xorByte_refill (i : Nat) (s : State) : xorByte i (refill s) = xorByte i s := by
  have hfull : (refill s).rem ≠ 0 := by
    rw [refill_rem]
    split
    · decide
    · assumption
  simp only [xorByte, afterTake, takenByte, refill_of_rem_ne_zero hfull, refill_dout, refill_din]

/-- The loop reads no register without architectural value (R39, R40). -/
theorem xorByte_architectural (i : Nat) (s : State) :
    (xorByte i s.architectural).architectural = (xorByte i s).architectural := by
  by_cases h : s.rem = 0
  · simp only [xorByte, afterTake, takenByte, refill_of_rem_eq_zero h, refill_of_rem_eq_zero (s := s.architectural) h]
    rfl
  · simp only [xorByte, afterTake, takenByte, refill_of_rem_ne_zero h, refill_of_rem_ne_zero (s := s.architectural) h]
    rfl

theorem xorLoop_architectural (n i : Nat) (s : State) :
    (xorLoop n i s.architectural).architectural = (xorLoop n i s).architectural := by
  induction n generalizing i s with
  | zero => rfl
  | succ n ih => rw [xorLoop, xorLoop, ← ih, xorByte_architectural, ih]

theorem complete_xorLoop_congr {s t : State} (h : s.architectural = t.architectural) (n i : Nat) :
    (complete (xorLoop n i s)).architectural = (complete (xorLoop n i t)).architectural := by
  have hloop : (xorLoop n i s).architectural = (xorLoop n i t).architectural := by
    rw [← xorLoop_architectural, h, xorLoop_architectural]
  exact congrArg complete hloop

/-- Where XOR goes on with byte `i` of `i + n`, it computes the loop, with one step per byte and at most 99 per block
produced. -/
theorem reachesWithin_xorContinue {len n i : Nat} (hlen : i + n = len) (lenOut : Nat) {s : State}
    (hclen : 1 ≤ s.clen.toNat ∧ s.clen.toNat ≤ 16) :
    reachesWithin (.xor len lenOut) (n + 99 * blocksFor (n - s.rem.toNat)) ⟨xorContinue len i s, i⟩
      (complete (xorLoop n i s)) := by
  induction n generalizing i s with
  | zero =>
    have hdone : xorContinue len i s = complete s := if_pos (by omega)
    rw [hdone]
    exact reachesWithin_refl _ _ _
  | succ n ih =>
    have hmore : ¬ len ≤ i := by omega
    have hbuffered {t : State} (ht : t.rem ≠ 0) (hclen : 1 ≤ t.clen.toNat ∧ t.clen.toNat ≤ 16) :
        reachesWithin (.xor len lenOut) (1 + (n + 99 * blocksFor (n - (t.rem.toNat - 1)))) ⟨xorContinue len i t, i⟩
          (complete (xorLoop (n + 1) i t)) := by
      have hbyte : xorContinue len i t = enter .xorbyte t := by rw [xorContinue, if_neg hmore, if_neg ht]
      have hleft : (xorByte i t).rem.toNat = t.rem.toNat - 1 := by rw [xorByte_rem, afterTake_rem_toNat, if_neg ht]
      rw [hbyte, ← hleft]
      exact reachesWithin_of_run (k := 1) (seqStep_xorbyte len lenOut i ht) (ih (by omega) (by rwa [xorByte_clen])) le_rfl
    by_cases hrem : s.rem = 0
    · have hblock : xorContinue len i s = enter .assemble s := by rw [xorContinue, if_neg hmore, if_pos hrem]
      obtain ⟨k, hk, t, ht, hrun⟩ := seqRun_xor_refill len lenOut i hrem hclen
      have htrem : t.rem = 64 := by
        rw [← architectural_rem, ht, architectural_rem, refill_rem, if_pos hrem]
      have htclen : t.clen = s.clen := by rw [← architectural_clen, ht, architectural_clen, refill_clen]
      have hloop : (complete (xorLoop (n + 1) i t)).architectural = (complete (xorLoop (n + 1) i s)).architectural := by
        rw [complete_xorLoop_congr ht, xorLoop, xorByte_refill, xorLoop]
      have hrest := hbuffered (t := t) (by rw [htrem]; decide) (htclen ▸ hclen)
      rw [hblock]
      refine reachesWithin_of_run hrun (reachesWithin_congr hrest hloop) ?_
      have h64 : t.rem.toNat = 64 := by rw [htrem]; rfl
      have h0 : s.rem.toNat = 0 := by rw [hrem]; rfl
      rw [h64, h0]
      unfold blocksFor
      omega
    · have hpos : s.rem.toNat ≠ 0 := BitVec.toNat_ne.1 hrem
      refine reachesWithin_of_run (k := 0) rfl (hbuffered hrem hclen) ?_
      unfold blocksFor
      omega

/-! ### Every command -/

/-- A failing check ends the command with its error in the first step (R278). -/
theorem reachesWithin_raise {i : Instr} {s : State} {e : ErrCode} (he : commandError i s = some e) :
    reachesWithin i 1 (seqStart s) (raise e s) := by
  have hcheck : commandError i { s with phase := .check } = some e := by rw [← he]; cases i <;> rfl
  have hstep : seqRun i 1 (seqStart s) = ⟨raise e s, 0⟩ := by
    show (⟨seqCheck i { s with phase := .check }, 0⟩ : Running) = _
    simp only [seqCheck, hcheck]
    rfl
  exact ⟨1, le_rfl, by rw [hstep]⟩

/-- An XOR that passes its checks has a session and at most 64 bytes (R253). -/
theorem valid_and_length_le_of_checksPass {len lenOut : Nat} {s : State} (h : commandError (.xor len lenOut) s = none) :
    s.valid = true ∧ len ≤ 64 := by
  simp only [commandError] at h
  repeat' split at h
  all_goals cases h
  next hvalid _ hwindow => exact ⟨by simpa using hvalid, Nat.not_lt.1 hwindow⟩

/-- When the checks pass the sequencer computes the command's writes (R40). -/
theorem reachesWithin_commandEffect {i : Instr} {s : State} (hs : s.Inv) (he : commandError i s = none) :
    reachesWithin i 170 (seqStart s) (complete (commandEffect i s)) := by
  have hcheck : commandError i { s with phase := .check } = none := by rw [← he]; cases i <;> rfl
  have hstart : seqRun i 1 (seqStart s) = ⟨seqCheck i { s with phase := .check }, 0⟩ := rfl
  simp only [seqCheck, hcheck] at hstart
  cases i with
  | initStd klen => exact reachesWithin_of_run hstart (bound := 1) ⟨1, le_rfl, rfl⟩ (by omega)
  | initCustom klen clen => exact reachesWithin_of_run hstart (bound := 1) ⟨1, le_rfl, rfl⟩ (by omega)
  | next =>
    have hvalid : s.valid = true := by simpa [commandError] using he
    exact reachesWithin_of_run hstart (reachesWithin_next (hs.clen_range hvalid) 0) (by omega)
  | xor len lenOut =>
    obtain ⟨hvalid, hlen⟩ := valid_and_length_le_of_checksPass he
    have hloop := reachesWithin_xorContinue (Nat.zero_add len) lenOut (hs.clen_range hvalid)
    refine reachesWithin_of_run hstart hloop ?_
    unfold blocksFor
    omega
  | block raw =>
    refine ⟨blockSteps raw, by cases raw <;> decide, ?_⟩
    rw [seqRun_block]
    rfl

/-- Settles O58: a refused command ends in its check, and a completed one with its writes; both end in `IDLE`. -/
theorem sequencerComputesTheCommand : Obligations.SequencerComputesTheCommand := by
  intro i s hs
  cases he : commandError i s with
  | some e =>
    obtain ⟨k, hk, hreach⟩ := reachesWithin_raise he
    exact ⟨k, raise e s, by omega, exec_of_commandError he, congrArg State.phase hreach, hreach⟩
  | none =>
    obtain ⟨k, hk, hreach⟩ := reachesWithin_commandEffect hs he
    exact ⟨k, _, hk, exec_of_checksPass he, congrArg State.phase hreach, hreach⟩

end Sys2Proof.Proofs
end
